-- ==== Sys2Proof/Word.lean ====
section
/-! DEFINITION. The value types of the datapath: 32-bit counters, 64-bit memory words, binary64 bit patterns, and the
Sample pair (00_scope.md R14, R16; 30_encoding.md R72, R75). -/

namespace Sys2Proof

/-- `u32` of 00_scope.md R14; also `NUM_W = 32` of R6. -/
abbrev U32 := BitVec 32

/-- `u64`: one word of the external memory (20_memory.md R51). -/
abbrev U64 := BitVec 64

/-- The bit pattern of one IEEE 754 binary64 value (40_sample.md R90). Two components are equal when the patterns are (R95). -/
abbrev F64 := BitVec 64

/-- A Sample: "a pair of double-precision real/imaginary components" (00_scope.md R16). -/
structure Sample where
  re : F64
  im : F64
  deriving DecidableEq, Repr, Inhabited

/-- `ZERO = (+0.0, +0.0)`, "the zero sample" (00_scope.md R16, 40_sample.md R95). -/
def Sample.zero : Sample := ⟨0#64, 0#64⟩

/-- The external memory: (word address, word) pairs. One address names one whole 64-bit word and no access names a byte
(20_memory.md R51, R56, R58), so a cell is a word (notes/assumptions/5.md). Its canonical form is `Memory.wf`. -/
abbrev Memory := List (Nat × U64)

end Sys2Proof
end

