-- ==== Sys2Proof/Config.lean ====
section
/-! DEFINITION. What is fixed at construction (00_scope.md R6), the units it gives the machine, and the two free values:
the twiddle factors and the bits of a NaN result. -/

namespace Sys2Proof

/-- Which units are used together (notes/assumptions/12.md). `interleaved` is the InterleavedFFT of 44_interleaved.md;
`fftAlone` is a standalone FFT whose `in_valid`/`in_data` the host drives (30_encoding.md R74, R87; 70_reset_and_hazards.md R265);
`dmaAlone` is a standalone DMA with its memory, whose `start` the host drives (95_test_vectors.md P3). A unit that is not part
of a standalone arrangement has its control inputs tied to 0. -/
inductive Wiring where
  | interleaved
  | fftAlone
  | dmaAlone
  deriving DecidableEq, Repr

/-- The construction parameters of 00_scope.md R6. `HOP_SIZE` is an integer, so that the refusal `HOP_NEGATIVE` of
60_exceptions.md R221 has something to refuse. -/
structure Params where
  n        : Nat
  aw       : Nat
  dw       : Nat
  numCores : Nat
  hopSize  : Int
  wiring   : Wiring
  deriving DecidableEq, Repr

/-- The reasons a configuration is refused, in the order of 60_exceptions.md R221. -/
inductive ConfigReason where
  | nNotPowerOfTwo
  | nBelow2
  | nTooLarge
  | awZero
  | dwNot64
  | noCores
  | hopNegative
  | staggerCounterOverflow
  deriving DecidableEq, Repr

/-- One unit of the machine: each has a select word and performs one operation at every edge (30_encoding.md R76). -/
inductive UnitId where
  | stage (core stage : Nat)
  | fft (core : Nat)
  | dma (core : Nat)
  | sched
  deriving DecidableEq, Repr

/-- The configuration of `State.reset`: the default widths of 00_scope.md R6; `N`, `NUM_CORES`, `HOP_SIZE` have no default and are
the model's example (DESIGN CHOICE, unsafe, notes/assumptions/2.md). -/
def Config.default : Params :=
  { n := 4, aw := 12, dw := 64, numCores := 2, hopSize := 3, wiring := .interleaved }

/-- `TWIDDLE(k, M)`: an OPEN parameter (40_sample.md R97, R98; 93_implementation_defined.md I1), "a total function of `(k, M)`
alone". A free value: nothing constrains it (notes/assumptions/3.md). -/
opaque Config.twiddle (k m : Nat) : Sample

/-- Sign and payload of one NaN result: "a model draws any NaN" (40_sample.md R100, 93_implementation_defined.md I2). A free value,
drawn afresh per cycle, core, stage and result slot (notes/assumptions/4.md). -/
opaque Config.freeNaN (cycle core stage slot : Nat) : BitVec 53

end Sys2Proof
end

