-- ==== Sys2Proof/Syntax.lean ====
section
/-! DEFINITION. The operations of the machine: one constructor per row of spec/opcode_table.json. An operation takes no written
operands (30_encoding.md R86); the arguments say only WHICH unit performs it (its core, and for a Stage its index). -/

namespace Sys2Proof

/-- The 22 rows of 30_encoding.md R78 to R81. -/
inductive Instr where
  | stgReset (core stage : Nat)
  | stgHold (core stage : Nat)
  | stgP1 (core stage : Nat)
  | stgP2 (core stage : Nat)
  | stgSyncP1 (core stage : Nat)
  | stgSyncP2 (core stage : Nat)
  | fftReset (core : Nat)
  | fftIdle (core : Nat)
  | fftFlush (core : Nat)
  | fftIngest (core : Nat)
  | fftSync (core : Nat)
  | dmaReset (core : Nat)
  | dmaIdle (core : Nat)
  | dmaAccept (core : Nat)
  | dmaIssue (core : Nat)
  | dmaLoopend (core : Nat)
  | dmaDone (core : Nat)
  | schReset
  | schIdle
  | schTrigger
  | schCount
  | schExit
  deriving DecidableEq, Repr

end Sys2Proof
end

