-- ==== Sys2Proof/Decode.lean ====
section
/-! DEFINITION. The select-word decoders of the four kinds of unit and the encoder (30_encoding.md R76 to R85). A select word is
carried in a byte; the bits above its width (4, for the DMA 5) are zero. A word that matches no row is rejected by name (R82). -/

namespace Sys2Proof

/-- Why a byte is no select word of a unit. -/
inductive DecodeError where
  /-- A bit above the unit's select word is set (30_encoding.md R85: each select word has a fixed width). -/
  | tooWide
  /-- The word matches no row of the unit's operation map (30_encoding.md R82). -/
  | noRow
  deriving DecidableEq, Repr

/-- One row of an operation map: the operation of the row whose `(select & mask) == match` (30_encoding.md R76). -/
structure Row where
  mask    : BitVec 8
  pattern : BitVec 8
  instr   : Instr
  deriving DecidableEq, Repr

/-- Stage operation map (30_encoding.md R78); bits rst enable sync ph2. -/
def stageRows (c i : Nat) : List Row :=
  [⟨0b1000, 0b1000, .stgReset c i⟩,
   ⟨0b1100, 0b0000, .stgHold c i⟩,
   ⟨0b1111, 0b0100, .stgP1 c i⟩,
   ⟨0b1111, 0b0101, .stgP2 c i⟩,
   ⟨0b1111, 0b0110, .stgSyncP1 c i⟩,
   ⟨0b1111, 0b0111, .stgSyncP2 c i⟩]

/-- FFT operation map (30_encoding.md R79); bits rst enable in_valid stage_sync. -/
def fftRows (c : Nat) : List Row :=
  [⟨0b1000, 0b1000, .fftReset c⟩,
   ⟨0b1111, 0b0000, .fftIdle c⟩,
   ⟨0b1111, 0b0100, .fftFlush c⟩,
   ⟨0b1111, 0b0110, .fftIngest c⟩,
   ⟨0b1111, 0b0111, .fftSync c⟩]

/-- DMA operation map (30_encoding.md R80); bits rst busy start active issue. -/
def dmaRows (c : Nat) : List Row :=
  [⟨0b10000, 0b10000, .dmaReset c⟩,
   ⟨0b11111, 0b00000, .dmaIdle c⟩,
   ⟨0b11111, 0b00100, .dmaAccept c⟩,
   ⟨0b11011, 0b01011, .dmaIssue c⟩,
   ⟨0b11011, 0b01010, .dmaLoopend c⟩,
   ⟨0b11011, 0b01000, .dmaDone c⟩]

/-- Scheduler operation map (30_encoding.md R81); bits rst active_stagger start exceed. -/
def schedRows : List Row :=
  [⟨0b1000, 0b1000, .schReset⟩,
   ⟨0b1111, 0b0000, .schIdle⟩,
   ⟨0b1111, 0b0010, .schTrigger⟩,
   ⟨0b1101, 0b0100, .schCount⟩,
   ⟨0b1101, 0b0101, .schExit⟩]

/-- The operation map of a unit. -/
def rowsOf : UnitId → List Row
  | .stage c i => stageRows c i
  | .fft c => fftRows c
  | .dma c => dmaRows c
  | .sched => schedRows

/-- The width of a unit's select word (30_encoding.md R77, R79, R80, R81). -/
def selectWidth : UnitId → Nat
  | .stage _ _ => 4
  | .fft _ => 4
  | .dma _ => 5
  | .sched => 4

/-- Does the word match a row of this mask and match? (30_encoding.md R76) -/
def rowMatches (w mask pattern : BitVec 8) : Bool := w &&& mask == pattern

/-- The operation of the first row of an operation map that the word matches. -/
def findRow (w : BitVec 8) : List Row → Option Instr
  | [] => none
  | ⟨mask, pattern, instr⟩ :: rs => if rowMatches w mask pattern then some instr else findRow w rs

/-- The operation a unit's select word selects, total on any byte (30_encoding.md R76 to R82). -/
def decode (u : UnitId) (w : BitVec 8) : Except DecodeError Instr :=
  if 2 ^ selectWidth u ≤ w.toNat then .error .tooWide
  else
    match findRow w (rowsOf u) with
    | some i => .ok i
    | none => .error .noRow

/-- The unit that performs an operation. -/
def unitOf : Instr → UnitId
  | .stgReset c i => .stage c i
  | .stgHold c i => .stage c i
  | .stgP1 c i => .stage c i
  | .stgP2 c i => .stage c i
  | .stgSyncP1 c i => .stage c i
  | .stgSyncP2 c i => .stage c i
  | .fftReset c => .fft c
  | .fftIdle c => .fft c
  | .fftFlush c => .fft c
  | .fftIngest c => .fft c
  | .fftSync c => .fft c
  | .dmaReset c => .dma c
  | .dmaIdle c => .dma c
  | .dmaAccept c => .dma c
  | .dmaIssue c => .dma c
  | .dmaLoopend c => .dma c
  | .dmaDone c => .dma c
  | .schReset => .sched
  | .schIdle => .sched
  | .schTrigger => .sched
  | .schCount => .sched
  | .schExit => .sched

/-- The "match" column of the row of an operation (spec/opcode_table.json): the bits its select word must have. -/
def matchOf : Instr → BitVec 8
  | .stgReset _ _ => 0b1000
  | .stgHold _ _ => 0b0000
  | .stgP1 _ _ => 0b0100
  | .stgP2 _ _ => 0b0101
  | .stgSyncP1 _ _ => 0b0110
  | .stgSyncP2 _ _ => 0b0111
  | .fftReset _ => 0b1000
  | .fftIdle _ => 0b0000
  | .fftFlush _ => 0b0100
  | .fftIngest _ => 0b0110
  | .fftSync _ => 0b0111
  | .dmaReset _ => 0b10000
  | .dmaIdle _ => 0b00000
  | .dmaAccept _ => 0b00100
  | .dmaIssue _ => 0b01011
  | .dmaLoopend _ => 0b01010
  | .dmaDone _ => 0b01000
  | .schReset => 0b1000
  | .schIdle => 0b0000
  | .schTrigger => 0b0010
  | .schCount => 0b0100
  | .schExit => 0b0101

/-- The "mask" column of the row of an operation (spec/opcode_table.json): the bits of its select word that are compared. -/
def maskOf : Instr → BitVec 8
  | .stgReset _ _ => 0b1000
  | .stgHold _ _ => 0b1100
  | .stgP1 _ _ => 0b1111
  | .stgP2 _ _ => 0b1111
  | .stgSyncP1 _ _ => 0b1111
  | .stgSyncP2 _ _ => 0b1111
  | .fftReset _ => 0b1000
  | .fftIdle _ => 0b1111
  | .fftFlush _ => 0b1111
  | .fftIngest _ => 0b1111
  | .fftSync _ => 0b1111
  | .dmaReset _ => 0b10000
  | .dmaIdle _ => 0b11111
  | .dmaAccept _ => 0b11111
  | .dmaIssue _ => 0b11011
  | .dmaLoopend _ => 0b11011
  | .dmaDone _ => 0b11011
  | .schReset => 0b1000
  | .schIdle => 0b1111
  | .schTrigger => 0b1111
  | .schCount => 0b1101
  | .schExit => 0b1101

/-- The select word of an operation: its row's match bits, with `extra` on the bits the row does not compare, cut to the width of
the unit's select word. `extra = 0` gives the word of the table. -/
def encodeWith (extra : BitVec 8) (i : Instr) : BitVec 8 :=
  matchOf i ||| (extra &&& ~~~(maskOf i) &&& BitVec.ofNat 8 (2 ^ selectWidth (unitOf i) - 1))

/-- The select word of an operation as the table gives it: the bits that are not compared are 0. -/
def encode (i : Instr) : BitVec 8 := encodeWith 0 i

/-- The kinds of unit in the order in which a bare word of the opcode table is read, each at core 0 and stage 0
(notes/assumptions/7.md: the table gives four units' words, and one word can stand in several units' maps). -/
def tableUnits : List UnitId := [.dma 0, .fft 0, .sched, .stage 0 0]

/-- The first of the units that has a row for the word, with that row's operation. -/
def decodeFirst (w : BitVec 8) : List UnitId → Option Instr
  | [] => none
  | u :: us =>
    match decode u w with
    | .ok i => some i
    | .error _ => decodeFirst w us

/-- The operation read from a select word whose bits are `w`, bit 0 the least significant; the bits above `nbits` are 0, and a
word that does not fit one byte is no select word (notes/assumptions/7.md). -/
def decodeTableWord (nbits w : Nat) : Option Instr :=
  if 2 ^ nbits ≤ w ∨ 256 ≤ w then none
  else decodeFirst (BitVec.ofNat 8 w) tableUnits

end Sys2Proof
end

