-- ==== Sys2Proof/Machine/Float.lean ====
section
/-! DEFINITION. IEEE 754 binary64 arithmetic, round to nearest, ties to even, no flags, subnormals kept (40_sample.md R90, R91, R100).
Every finite value is an integer number of units of 2^-1074, so each operation computes its exact result on integers and rounds once.
A NaN result is the argument `q`, which the caller supplies (the drawn NaN of R100). -/

namespace Sys2Proof.Machine

/-- The sign bit. -/
def fSign (x : F64) : Bool := x.msb

/-- The biased exponent field, bits 62 to 52. -/
def fExp (x : F64) : Nat := x.toNat / 2 ^ 52 % 2048

/-- The fraction field, bits 51 to 0. -/
def fFrac (x : F64) : Nat := x.toNat % 2 ^ 52

/-- Is it a NaN? -/
def fIsNaN (x : F64) : Bool := fExp x == 2047 && fFrac x != 0

/-- Is it an infinity? -/
def fIsInf (x : F64) : Bool := fExp x == 2047 && fFrac x == 0

/-- Is it neither? -/
def fIsFinite (x : F64) : Bool := fExp x != 2047

/-- The magnitude of a finite value, in units of 2^-1074. -/
def fMag (x : F64) : Nat :=
  if fExp x = 0 then fFrac x else (2 ^ 52 + fFrac x) * 2 ^ (fExp x - 1)

/-- Is it `+0.0` or `-0.0`? -/
def fIsZero (x : F64) : Bool := fMag x == 0

/-- A finite value, in units of 2^-1074. -/
def fVal (x : F64) : Int := if fSign x then -(fMag x : Int) else (fMag x : Int)

/-- The magnitude bits of infinity. -/
def infBits : Nat := 2047 * 2 ^ 52

/-- The value with the given sign and magnitude bits. -/
def ofSignBits (sign : Bool) (bits : Nat) : F64 :=
  BitVec.ofNat 64 ((if sign then 2 ^ 63 else 0) + bits)

/-- `m / 2^t` rounded to an integer, to nearest, ties to even. -/
def roundShift (m t : Nat) : Nat :=
  let q := m / 2 ^ t
  let r := m % 2 ^ t
  if 2 ^ t < 2 * r ∨ (2 * r = 2 ^ t ∧ q % 2 = 1) then q + 1 else q

/-- The magnitude bits of `m / 2^s` units of 2^-1074, rounded to binary64: `u` is the exponent of the result's last place, its
significand has at most 53 bits, and a significand that rounds up to 2^53 carries into the exponent field. -/
def roundBits (m s : Nat) : Nat :=
  let u := m.log2 - s - 52
  min (u * 2 ^ 52 + roundShift m (s + u)) infBits

/-- The opposite sign; of a NaN too, which no result of this file depends on. -/
def fneg (x : F64) : F64 := x ^^^ BitVec.ofNat 64 (2 ^ 63)

/-- `fadd` (40_sample.md R91). An exact zero sum is -0 only when both operands are negative. -/
def fadd (q a b : F64) : F64 :=
  if fIsNaN a || fIsNaN b then q
  else if fIsInf a then (if fIsInf b && (fSign a != fSign b) then q else a)
  else if fIsInf b then b
  else
    let z := fVal a + fVal b
    if z = 0 then ofSignBits (fSign a && fSign b) 0
    else ofSignBits (decide (z < 0)) (roundBits z.natAbs 0)

/-- `fsub` (40_sample.md R91). -/
def fsub (q a b : F64) : F64 := fadd q a (fneg b)

/-- `fmul` (40_sample.md R91). -/
def fmul (q a b : F64) : F64 :=
  let sign := fSign a != fSign b
  if fIsNaN a || fIsNaN b then q
  else if fIsInf a then (if fIsZero b then q else ofSignBits sign infBits)
  else if fIsInf b then (if fIsZero a then q else ofSignBits sign infBits)
  else ofSignBits sign (roundBits (fMag a * fMag b) 1074)

/-- The integer square root below `r + 2^bits`, found bit by bit: the largest `s` of that form with `s * s ≤ n`. -/
def isqrtFrom (n : Nat) : Nat → Nat → Nat
  | 0, r => r
  | bits + 1, r =>
    if (r + 2 ^ bits) * (r + 2 ^ bits) ≤ n then isqrtFrom n bits (r + 2 ^ bits) else isqrtFrom n bits r

/-- The integer square root. -/
def isqrt (n : Nat) : Nat := isqrtFrom n (n.log2 / 2 + 1) 0

/-- `fsqrt` (40_sample.md R91). In units of 2^-1074 the root of `m` units is the root of `m * 2^1074`; it has more than 500 integer
bits, so one sticky bit below them decides the rounding. -/
def fsqrt (q a : F64) : F64 :=
  if fIsNaN a then q
  else if fIsZero a then a
  else if fSign a then q
  else if fIsInf a then a
  else
    let n := fMag a * 2 ^ 1074
    let r := isqrt n
    ofSignBits false (roundBits (2 * r + (if r * r = n then 0 else 1)) 1)

/-- `u32_to_f64`: the binary64 value equal to the unsigned integer (40_sample.md R91, R96). -/
def u32ToF64 (n : U32) : F64 := ofSignBits false (roundBits (n.toNat * 2 ^ 1074) 0)

/-- A NaN with the drawn sign (the top bit) and payload (the rest): every NaN is one, and payload 0, which would be an infinity,
stands for payload 1 (40_sample.md R100: "a model draws any NaN"). -/
def nanOf (b : BitVec 53) : F64 :=
  ofSignBits b.msb (infBits + (if b.toNat % 2 ^ 52 = 0 then 1 else b.toNat % 2 ^ 52))

end Sys2Proof.Machine
end

