-- ==== Sys2Proof/Machine/Operands.lean ====
section
/-! DEFINITION. The Sample arithmetic the units compute with (40_sample.md R92 to R101), and the packed-sample word (30_encoding.md
R72, R73). Each binary64 operation has a slot of its own, at which its NaN result is drawn. -/

namespace Sys2Proof.Machine

/-- Where NaN results are drawn: the cycle and the stage that computes (40_sample.md R100, notes/assumptions/4.md). -/
structure Draw where
  cycle : Nat
  core  : Nat
  stage : Nat
  deriving DecidableEq, Repr

/-- The NaN drawn for one result slot. -/
def drawNaN (d : Draw) (slot : Nat) : F64 := nanOf (Config.freeNaN d.cycle d.core d.stage slot)

/-- `sadd(a, b)` (40_sample.md R92). -/
def sadd (d : Draw) (a b : Sample) : Sample :=
  ⟨fadd (drawNaN d 0) a.re b.re, fadd (drawNaN d 1) a.im b.im⟩

/-- `ssub(a, b)` (40_sample.md R93). -/
def ssub (d : Draw) (a b : Sample) : Sample :=
  ⟨fsub (drawNaN d 2) a.re b.re, fsub (drawNaN d 3) a.im b.im⟩

/-- `smul(a, b)`: four products, each rounded, then one rounded sum per component (40_sample.md R94). -/
def smul (d : Draw) (a b : Sample) : Sample :=
  ⟨fsub (drawNaN d 8) (fmul (drawNaN d 4) a.re b.re) (fmul (drawNaN d 5) a.im b.im),
   fadd (drawNaN d 9) (fmul (drawNaN d 6) a.re b.im) (fmul (drawNaN d 7) a.im b.re)⟩

/-- `BF(a, b, k, M)`, the butterfly (40_sample.md R99). -/
def butterfly (d : Draw) (a b : Sample) (k m : Nat) : Sample × Sample :=
  (sadd d a b, smul d (ssub d a b) (Config.twiddle k m))

/-- `smag(a)`, the magnitude accessor (40_sample.md R101). No unit reads it. -/
def smag (d : Draw) (a : Sample) : F64 :=
  fsqrt (drawNaN d 13)
    (fadd (drawNaN d 12) (fmul (drawNaN d 10) a.re a.re) (fmul (drawNaN d 11) a.im a.im))

/-- `RE`, bits 63 to 32 of a packed word (30_encoding.md R72, R73). -/
def wordRe (w : U64) : U32 := w.extractLsb' 32 32

/-- `IM`, bits 31 to 0 of a packed word (30_encoding.md R72, R73). -/
def wordIm (w : U64) : U32 := w.extractLsb' 0 32

/-- `unpack(w)` (40_sample.md R96): both halves unsigned, no sign extension. -/
def unpack (w : U64) : Sample := ⟨u32ToF64 (wordRe w), u32ToF64 (wordIm w)⟩

/-- The property `TW_ONE` names of one twiddle `TWIDDLE(0, M)`: real part 1.0, imaginary part a zero of either sign
(40_sample.md R98). -/
def isUnitTwiddle (w : Sample) : Bool :=
  w.re == 0x3FF0000000000000#64 && (w.im == 0#64 || w.im == 0x8000000000000000#64)

end Sys2Proof.Machine
end

