-- ==== Sys2Proof/Machine/Derived.lean ====
section
/-! DEFINITION. The constants derived from the configuration (00_scope.md R7) and the check that refuses an illegal one
(30_encoding.md R71, 60_exceptions.md R221). -/

namespace Sys2Proof.Machine

/-- `K = log2(N)`, the number of stages. -/
def numStages (n : Nat) : Nat := n.log2

/-- `N_i = N / 2^i`. -/
def stageSize (n i : Nat) : Nat := n / 2 ^ i

/-- `D_i = N_i / 2`, "delay_len". -/
def delayLen (n i : Nat) : Nat := stageSize n i / 2

/-- `lat_i = N_i/2 + 1`. -/
def stageLatency (n i : Nat) : Nat := stageSize n i / 2 + 1

/-- `cum_i = sum_{j<i} lat_j`, the latency of the stages before stage `i`. -/
def cumLatency (n : Nat) : Nat → Nat
  | 0 => 0
  | i + 1 => cumLatency n i + stageLatency n i

/-- `offset_i = (N_i - (cum_i mod N_i)) mod N_i`, "init_offset". -/
def initOffset (n i : Nat) : Nat :=
  (stageSize n i - cumLatency n i % stageSize n i) % stageSize n i

/-- `L = latency_cycles = sum_{i=0}^{K-1} lat_i`. -/
def latency (n : Nat) : Nat := cumLatency n (numStages n)

/-- `HOP_SIZE` as a count of cycles. -/
def hop (p : Params) : Nat := p.hopSize.toNat

/-- The exit bound `NUM_CORES * HOP_SIZE + 2` (44_interleaved.md R195). -/
def exitBound (p : Params) : Nat := p.numCores * hop p + 2

/-- Reduces an address to the `AW` wires of an address bus. -/
def wrapAddr (p : Params) (a : Nat) : Nat := a % 2 ^ p.aw

/-- The first reason to refuse a configuration, in the order of 60_exceptions.md R221, or none when it is legal by
30_encoding.md R71 (notes/assumptions/11.md). -/
def configRefusal (p : Params) : Option ConfigReason :=
  if p.n ≠ 2 ^ p.n.log2 then some .nNotPowerOfTwo
  else if p.n < 2 then some .nBelow2
  else if 2 ^ 31 < p.n then some .nTooLarge
  else if p.aw = 0 then some .awZero
  else if p.dw ≠ 64 then some .dwNot64
  else if p.numCores = 0 then some .noCores
  else if p.hopSize < 0 then some .hopNegative
  else if 2 ^ 32 - 1 < p.numCores * hop p + 3 then some .staggerCounterOverflow
  else none

end Sys2Proof.Machine
end

