-- ==== Sys2Proof/Machine/Registers.lean ====
section
/-! DEFINITION. The registers of each unit (10_state.md R23 to R42), the inputs of one cycle (30_encoding.md R74), and the reset
value of every register (10_state.md R46, 70_reset_and_hazards.md R243). -/

namespace Sys2Proof.Machine

/-- The registers of one Stage (10_state.md R23 to R26). -/
structure StageRegs where
  cnt    : Nat
  bufIn  : List Sample
  bufOut : List Sample
  out    : Sample
  deriving DecidableEq, Repr

/-- The registers of one FFT (10_state.md R27 to R31). `v` lists `v[0]` first. -/
structure FftRegs where
  internalCnt  : U32
  samplesInCnt : Nat
  outCntReg    : Nat
  v            : List Bool
  stages       : List StageRegs
  deriving DecidableEq, Repr

/-- The registers of one DMA (10_state.md R32 to R40). The address registers hold `uAW` values, `AW` being a parameter. -/
structure DmaRegs where
  baseAddr      : Nat
  numSamples    : U32
  sampleCounter : U32
  currentAddr   : Nat
  memAddr       : Nat
  readWait      : Bool
  readReq       : Bool
  active        : Bool
  busy          : Bool
  deriving DecidableEq, Repr

/-- The registers of the scheduler (10_state.md R42). -/
structure SchedRegs where
  activeStagger  : Bool
  staggerCounter : U32
  deriving DecidableEq, Repr

/-- One core: a (DMA, FFT) pair (10_state.md R22). -/
structure CoreRegs where
  dma : DmaRegs
  fft : FftRegs
  deriving DecidableEq, Repr

/-- The transfer parameters on the inputs of one core's DMA (30_encoding.md R74). -/
structure XferIn where
  baseAddrIn   : Nat
  numSamplesIn : U32
  deriving DecidableEq, Repr

/-- The values on the input ports in one cycle: one line of a trace (30_encoding.md R74, R87). `xfer` lists the cores from core 0;
a core it does not reach has both parameters 0. -/
structure Inputs where
  rst     : Bool
  start   : Bool
  xfer    : List XferIn
  inValid : Bool
  inData  : Sample
  wEn     : Bool
  wAddr   : Nat
  wData   : U64
  deriving DecidableEq, Repr

/-- Every input 0: the inputs of a cycle after the last line of a trace (30_encoding.md R87). -/
def Inputs.idle : Inputs :=
  { rst := false, start := false, xfer := [], inValid := false, inData := Sample.zero,
    wEn := false, wAddr := 0, wData := 0#64 }

/-- The inputs of a cycle with `rst = 1` and every other input 0. -/
def Inputs.reset : Inputs := { Inputs.idle with rst := true }

/-- The parameters on the inputs of core `c`, absent meaning 0 (30_encoding.md R87). -/
def Inputs.xferOf (inp : Inputs) (c : Nat) : XferIn := inp.xfer.getD c ⟨0, 0#32⟩

/-- A Stage's buffer with every element `ZERO`. -/
def clearBuf (len : Nat) : List Sample := List.replicate len Sample.zero

/-- The registers of stage `i` of an `N`-point FFT after a reset (41_stage.md R112). -/
def stageResetRegs (n i : Nat) : StageRegs :=
  { cnt := initOffset n i, bufIn := clearBuf (delayLen n i), bufOut := clearBuf (delayLen n i), out := Sample.zero }

/-- The registers of an `N`-point FFT after a reset (42_fft.md R136). -/
def fftResetRegs (n : Nat) : FftRegs :=
  { internalCnt := 0#32, samplesInCnt := 0, outCntReg := 0, v := List.replicate (latency n) false,
    stages := (List.range (numStages n)).map (stageResetRegs n) }

/-- The registers of a DMA after a reset (43_dma.md R164). -/
def dmaResetRegs : DmaRegs :=
  { baseAddr := 0, numSamples := 0#32, sampleCounter := 0#32, currentAddr := 0, memAddr := 0,
    readWait := false, readReq := false, active := false, busy := false }

/-- The registers of the scheduler after a reset (44_interleaved.md R197). -/
def schedResetRegs : SchedRegs := { activeStagger := false, staggerCounter := 0#32 }

/-- The memory after a reset: every word 0, so nothing listed (20_memory.md R55). -/
def memResetCells : Memory := []

/-- The read-data registers of `ports` read ports after a reset: every one 0 (20_memory.md R55). -/
def rdataResetRegs (ports : Nat) : List U64 := List.replicate ports 0#64

end Sys2Proof.Machine
end

