-- ==== Sys2Proof/Machine/State.lean ====
section
/-! DEFINITION. The state of the whole machine (10_state.md), the reasons a step can stop, and the state after reset. -/

namespace Sys2Proof.Machine

/-- Every register of the machine, and beside them the configuration and the host's inputs (10_state.md R20).
`cfg`: the construction parameters, fixed for a run (R6). `sched`, `cores`: the registers of R23 to R42. `mem`, `rdata`: the external
memory and its read-data registers, one per read port (R43). `trace`: the inputs of this cycle (its head) and of the coming cycles
(30_encoding.md R87; the model's own field, notes/assumptions/1.md). `cycle`: how many edges were taken, at which the free values are
drawn (the model's own field, notes/assumptions/4.md). -/
structure State where
  cfg   : Params
  sched : SchedRegs
  cores : List CoreRegs
  mem   : Memory
  rdata : List U64
  trace : List Inputs
  cycle : Nat
  deriving DecidableEq, Repr

/-- Why the machine stops with a fault. The hardware itself has no fault (60_exceptions.md R222). -/
inductive Fault where
  /-- Raised by a step when a unit's select word matches no row of its operation map: a model error that no state reachable from
  reset has (30_encoding.md R82, 93_implementation_defined.md I5). Safe: the model stops where the hardware cannot be. -/
  | noOperation (unit : UnitId) (word : BitVec 8)
  /-- Raised by an operation addressed to a unit the machine does not have (44_interleaved.md R190). Safe: there is no such
  operation. -/
  | noSuchUnit (unit : UnitId)
  deriving DecidableEq, Repr

/-- Why the machine refuses. -/
inductive Refusal where
  /-- Raised by `exec` for an operation that has no meaning yet. Safe. -/
  | notModelled (mnemonic : String)
  /-- Raised by a step in a configuration that is not legal: "No state exists for a refused configuration, and no step is taken"
  (60_exceptions.md R221). Safe. -/
  | illegalConfig (reason : ConfigReason)
  deriving DecidableEq, Repr

/-- The machine of configuration `p` right after a reset edge (10_state.md R46, 70_reset_and_hazards.md R243), with the inputs
`trace` to come. -/
def State.resetOf (p : Params) (trace : List Inputs) : State :=
  { cfg := p
    sched := schedResetRegs
    cores := List.replicate p.numCores { dma := dmaResetRegs, fft := fftResetRegs p.n }
    mem := memResetCells
    rdata := rdataResetRegs p.numCores
    trace := trace
    cycle := 0 }

/-- The machine right after reset, in the model's example configuration and with every input 0 to come
(notes/assumptions/2.md, notes/assumptions/8.md). -/
def State.reset : State := State.resetOf Config.default []

end Sys2Proof.Machine
end

