-- ==== Sys2Proof/Machine/Flags.lean ====
section
/-! DEFINITION. Every combinational signal of a cycle: a pure function of the registers and the inputs (00_scope.md R11), the select
words made of them (30_encoding.md R77, R79 to R81), and the outputs (30_encoding.md R75). -/

namespace Sys2Proof.Machine

/-! ### Signals of one unit -/

/-- `inflight` (42_fft.md R131). -/
def fftInflight (f : FftRegs) : Bool := f.v.any id

/-- `enable` of an FFT and of each of its stages (42_fft.md R132). -/
def fftEnable (inValid : Bool) (f : FftRegs) : Bool := inValid || fftInflight f

/-- `stage_sync` (42_fft.md R133). -/
def fftStageSync (inValid : Bool) (f : FftRegs) : Bool :=
  f.samplesInCnt == 0 && inValid && !fftInflight f

/-- `cnt_eff` of stage `i` (30_encoding.md R77). -/
def cntEff (n i : Nat) (sync : Bool) (r : StageRegs) : Nat := if sync then initOffset n i else r.cnt

/-- `ph2` of stage `i`: Phase 2 (30_encoding.md R77). -/
def stagePh2 (n i : Nat) (sync : Bool) (r : StageRegs) : Bool := decide (delayLen n i ≤ cntEff n i sync r)

/-- `issue` (43_dma.md R162); the comparison is unsigned on 32 bits. -/
def dmaIssueCond (d : DmaRegs) : Bool := d.active && d.sampleCounter.ult d.numSamples

/-- `fft_data` (43_dma.md R172), from the data bus `rdata`. -/
def dmaFftData (d : DmaRegs) (rdata : U64) : Sample := if d.readReq then unpack rdata else Sample.zero

/-- `start_c`, the start pulse of core `c` (44_interleaved.md R194). -/
def startPulse (p : Params) (c : Nat) (r : SchedRegs) : Bool :=
  r.activeStagger && r.staggerCounter.toNat == c * hop p

/-- `exceed` (44_interleaved.md R195). -/
def schedExceed (p : Params) (r : SchedRegs) : Bool := decide (exitBound p < r.staggerCounter.toNat)

/-! ### Select words -/

/-- Stage select word (30_encoding.md R77). -/
def stageSelect (rst enable sync ph2 : Bool) : BitVec 4 :=
  BitVec.ofBool rst ++ BitVec.ofBool enable ++ BitVec.ofBool sync ++ BitVec.ofBool ph2

/-- FFT select word (30_encoding.md R79). -/
def fftSelect (rst enable inValid stageSync : Bool) : BitVec 4 :=
  BitVec.ofBool rst ++ BitVec.ofBool enable ++ BitVec.ofBool inValid ++ BitVec.ofBool stageSync

/-- DMA select word (30_encoding.md R80). -/
def dmaSelect (rst busy start active issue : Bool) : BitVec 5 :=
  BitVec.ofBool rst ++ BitVec.ofBool busy ++ BitVec.ofBool start ++ BitVec.ofBool active ++ BitVec.ofBool issue

/-- Scheduler select word (30_encoding.md R81). -/
def schedSelect (rst activeStagger start exceed : Bool) : BitVec 4 :=
  BitVec.ofBool rst ++ BitVec.ofBool activeStagger ++ BitVec.ofBool start ++ BitVec.ofBool exceed

/-! ### Reading the state -/

/-- The inputs of this cycle; after the last line of the trace every input is 0 (30_encoding.md R87). -/
def inputsOf (s : State) : Inputs := s.trace.headD Inputs.idle

/-- The registers of core `c`'s DMA, where the machine has that core. -/
def dmaAt (s : State) (c : Nat) : Option DmaRegs := s.cores[c]?.map (·.dma)

/-- The registers of core `c`'s FFT, where the machine has that core. -/
def fftAt (s : State) (c : Nat) : Option FftRegs := s.cores[c]?.map (·.fft)

/-- The registers of stage `i` of core `c`, where the machine has that stage. -/
def stageAt (s : State) (c i : Nat) : Option StageRegs := (fftAt s c).bind (·.stages[i]?)

/-- The data bus of read port `c` (20_memory.md R52; 44_interleaved.md R192). -/
def rdataAt (s : State) (c : Nat) : U64 := s.rdata.getD c 0#64

/-! ### Signals on the wires of the machine -/

/-- The scheduler's `start` input: the global trigger, connected in an InterleavedFFT only (notes/assumptions/12.md). -/
def globalStart (s : State) : Bool :=
  match s.cfg.wiring with
  | .interleaved => (inputsOf s).start
  | .fftAlone => false
  | .dmaAlone => false

/-- The `start` input of core `c`'s DMA: its start pulse (44_interleaved.md R194), or the host's `start` for a standalone DMA
(notes/assumptions/12.md). -/
def dmaStart (s : State) (c : Nat) : Bool :=
  match s.cfg.wiring with
  | .interleaved => startPulse s.cfg c s.sched
  | .fftAlone => false
  | .dmaAlone => (inputsOf s).start

/-- The `base_addr_in` of core `c`'s DMA, on the `AW` wires of the port (30_encoding.md R74; notes/assumptions/6.md). -/
def baseAddrIn (s : State) (c : Nat) : Nat := wrapAddr s.cfg ((inputsOf s).xferOf c).baseAddrIn

/-- The `num_samples_in` of core `c`'s DMA (30_encoding.md R74). -/
def numSamplesIn (s : State) (c : Nat) : U32 := ((inputsOf s).xferOf c).numSamplesIn

/-- `fft_valid` of core `c`'s DMA (43_dma.md R171). -/
def fftValid (s : State) (c : Nat) : Bool := (dmaAt s c).elim false (·.readReq)

/-- `fft_data` of core `c`'s DMA (43_dma.md R172). -/
def fftData (s : State) (c : Nat) : Sample := (dmaAt s c).elim Sample.zero (dmaFftData · (rdataAt s c))

/-- `in_valid` of core `c`'s FFT: its DMA's `fft_valid` (44_interleaved.md R191), or the host's port for a standalone FFT (42_fft.md
R130; notes/assumptions/12.md). -/
def inValidOf (s : State) (c : Nat) : Bool :=
  match s.cfg.wiring with
  | .interleaved => fftValid s c
  | .fftAlone => (inputsOf s).inValid
  | .dmaAlone => false

/-- `in_data` of core `c`'s FFT: its DMA's `fft_data` (44_interleaved.md R191), or the host's port for a standalone FFT (42_fft.md
R130; notes/assumptions/12.md). -/
def inDataOf (s : State) (c : Nat) : Sample :=
  match s.cfg.wiring with
  | .interleaved => fftData s c
  | .fftAlone => (inputsOf s).inData
  | .dmaAlone => Sample.zero

/-- `enable` of core `c`'s FFT and its stages (42_fft.md R132). -/
def enableOf (s : State) (c : Nat) : Bool := (fftAt s c).elim false (fftEnable (inValidOf s c))

/-- `stage_sync` of core `c`'s FFT, the `sync` of its stages (42_fft.md R133). -/
def syncOf (s : State) (c : Nat) : Bool := (fftAt s c).elim false (fftStageSync (inValidOf s c))

/-- The input `x` of stage `i` of core `c`: the FFT's `in_data` for stage 0, else the output register of the stage before it
(42_fft.md R134). -/
def stageInput (s : State) (c : Nat) : Nat → Sample
  | 0 => inDataOf s c
  | i + 1 => (stageAt s c i).elim Sample.zero (·.out)

/-- `ph2` of stage `i` of core `c` in this cycle (30_encoding.md R77). -/
def ph2Of (s : State) (c i : Nat) : Bool :=
  (stageAt s c i).elim false (stagePh2 s.cfg.n i (syncOf s c))

/-- The select word of a unit in this cycle (30_encoding.md R77, R79 to R81), in a byte. -/
def selectOf (s : State) : UnitId → BitVec 8
  | .stage c i =>
    (stageSelect (inputsOf s).rst (enableOf s c) (syncOf s c) (ph2Of s c i)).setWidth 8
  | .fft c =>
    (fftSelect (inputsOf s).rst (enableOf s c) (inValidOf s c) (syncOf s c)).setWidth 8
  | .dma c =>
    (dmaSelect (inputsOf s).rst ((dmaAt s c).elim false (·.busy)) (dmaStart s c)
      ((dmaAt s c).elim false (·.active)) ((dmaAt s c).elim false dmaIssueCond)).setWidth 8
  | .sched =>
    (schedSelect (inputsOf s).rst s.sched.activeStagger (globalStart s) (schedExceed s.cfg s.sched)).setWidth 8

/-! ### Outputs -/

/-- The `s32` value -1, "when invalid" and "when idle" (30_encoding.md R75). -/
def noIndex : BitVec 32 := 0xFFFFFFFF#32

/-- `status` (42_fft.md R145). -/
def statusOut (s : State) (c : Nat) : Bool := enableOf s c

/-- `in_index` (42_fft.md R146). -/
def inIndexOut (s : State) (c : Nat) : BitVec 32 :=
  if inValidOf s c then (fftAt s c).elim noIndex (fun f => BitVec.ofNat 32 f.samplesInCnt) else noIndex

/-- `out_valid`: the tail of the validity shift register (42_fft.md R147). -/
def outValidOut (s : State) (c : Nat) : Bool := (fftAt s c).elim false (fun f => f.v.getD (latency s.cfg.n - 1) false)

/-- `out_index` (42_fft.md R147). -/
def outIndexOut (s : State) (c : Nat) : BitVec 32 :=
  if outValidOut s c then (fftAt s c).elim noIndex (fun f => BitVec.ofNat 32 f.outCntReg) else noIndex

/-- `out_data`: the final stage's output register (42_fft.md R148). -/
def outDataOut (s : State) (c : Nat) : Sample :=
  if outValidOut s c then (stageAt s c (numStages s.cfg.n - 1)).elim Sample.zero (·.out) else Sample.zero

/-- The outputs of one core in one cycle (30_encoding.md R75, 44_interleaved.md R190). -/
structure CoreOut where
  outData  : Sample
  outValid : Bool
  outIndex : BitVec 32
  inIndex  : BitVec 32
  status   : Bool
  busy     : Bool
  memAddr  : Nat
  fftValid : Bool
  fftData  : Sample
  deriving DecidableEq, Repr

/-- The outputs of core `c` in this cycle (42_fft.md R145 to R148; 43_dma.md R170 to R173). -/
def outputsOf (s : State) (c : Nat) : CoreOut :=
  { outData := outDataOut s c
    outValid := outValidOut s c
    outIndex := outIndexOut s c
    inIndex := inIndexOut s c
    status := statusOut s c
    busy := (dmaAt s c).elim false (·.busy)
    memAddr := (dmaAt s c).elim 0 (·.memAddr)
    fftValid := fftValid s c
    fftData := fftData s c }

end Sys2Proof.Machine
end

