-- ==== Sys2Proof/Machine/Ops.lean ====
section
/-! DEFINITION. The named operations over the memory and the registers. The hardware has no exception, trap or mode (60_exceptions.md
R222, R226, R227), so there is no exception entry and no return from one: the one event that redirects it is the synchronous reset of
70_reset_and_hazards.md R240, whose operations are STG.RESET, FFT.RESET, DMA.RESET, SCH.RESET and `memStep`. -/

namespace Sys2Proof.Machine

/-! ### Memory -/

/-- `M[a]`: an address that is not listed holds 0 (20_memory.md R55: clear-on-reset). -/
def memRead : Memory → Nat → U64
  | [], _ => 0#64
  | (b, w) :: m, a => if a = b then w else memRead m a

/-- Drops the cell of an address. -/
def memErase : Memory → Nat → Memory
  | [], _ => []
  | (b, w) :: m, a => if a = b then m else (b, w) :: memErase m a

/-- Lists the cell of an address, in address order. -/
def memInsert : Memory → Nat → U64 → Memory
  | [], a, x => [(a, x)]
  | (b, w) :: m, a, x =>
    if a < b then (a, x) :: (b, w) :: m
    else if a = b then (a, x) :: m
    else (b, w) :: memInsert m a x

/-- `MemWrite(a, x)` (20_memory.md R53), keeping the canonical form: a word 0 is not listed. -/
def memWrite (m : Memory) (a : Nat) (x : U64) : Memory :=
  if x = 0#64 then memErase m a else memInsert m a x

/-- The canonical form from a lowest admitted address on: addresses strictly rising, no word 0. -/
def memWfFrom : Nat → Memory → Bool
  | _, [] => true
  | lo, (b, w) :: m => decide (lo ≤ b) && (w != 0#64) && memWfFrom (b + 1) m

/-- The canonical form of a memory: addresses strictly rising, and no cell equal to what an unlisted address reads as. -/
def Memory.wf (m : Memory) : Bool := memWfFrom 0 m

/-- The memory array after an edge (20_memory.md R53, R55): cleared by a reset, else written by the host where `w_en = 1`. -/
def memNext (s : State) : Memory :=
  if (inputsOf s).rst then memResetCells
  else if (inputsOf s).wEn then memWrite s.mem (wrapAddr s.cfg (inputsOf s).wAddr) (inputsOf s).wData
  else s.mem

/-- The read-data register of one port after an edge without reset: the word of the pre-edge memory at the address on the port's
address bus, `mem_addr` of the core's DMA (20_memory.md R52, R54; 44_interleaved.md R192). -/
def portRead (m : Memory) (core : CoreRegs) : U64 := memRead m core.dma.memAddr

/-- The read-data registers after an edge (20_memory.md R52, R55). -/
def rdataNext (s : State) : List U64 :=
  if (inputsOf s).rst then rdataResetRegs s.cores.length
  else s.cores.map (portRead s.mem)

/-! ### Writing registers -/

/-- Writes the registers of core `c`'s DMA. -/
def setDma (s : State) (c : Nat) (d : DmaRegs) : State :=
  { s with cores := s.cores.modify c (fun k => { k with dma := d }) }

/-- Writes the registers of core `c`'s FFT, its stages included. -/
def setFft (s : State) (c : Nat) (f : FftRegs) : State :=
  { s with cores := s.cores.modify c (fun k => { k with fft := f }) }

/-- Writes the registers of stage `i` of core `c`. -/
def setStage (s : State) (c i : Nat) (r : StageRegs) : State :=
  { s with cores := s.cores.modify c (fun k => { k with fft := { k.fft with stages := k.fft.stages.set i r } }) }

/-- Writes the registers of the scheduler. -/
def setSched (s : State) (r : SchedRegs) : State := { s with sched := r }

/-! ### Performing an operation on one unit -/

/-- The next state, a fault or a refusal. -/
abbrev Result := Host.Outcome State Fault Refusal

/-- What a Stage operation reads besides its registers: its constants (00_scope.md R7), its input `x` (42_fft.md R134), its index
and where its NaN results are drawn. -/
structure StageEnv where
  n     : Nat
  stage : Nat
  x     : Sample
  draw  : Draw
  deriving DecidableEq, Repr

/-- The environment of stage `i` of core `c` in this cycle. -/
def stageEnv (s : State) (c i : Nat) : StageEnv :=
  { n := s.cfg.n, stage := i, x := stageInput s c i, draw := { cycle := s.cycle, core := c, stage := i } }

/-- Performs an operation on stage `i` of core `c`; it writes the registers of that stage alone (10_state.md R22). -/
def onStage (c i : Nat) (s : State) (op : StageEnv → StageRegs → StageRegs) : Result :=
  match stageAt s c i with
  | none => .fault (.noSuchUnit (.stage c i))
  | some r => .next (setStage s c i (op (stageEnv s c i) r))

/-- Performs an operation on core `c`'s FFT; it writes the registers of that FFT alone. -/
def onFft (c : Nat) (s : State) (op : FftRegs → FftRegs) : Result :=
  match fftAt s c with
  | none => .fault (.noSuchUnit (.fft c))
  | some f => .next (setFft s c (op f))

/-- Performs an operation on core `c`'s DMA; it writes the registers of that DMA alone. -/
def onDma (c : Nat) (s : State) (op : DmaRegs → DmaRegs) : Result :=
  match dmaAt s c with
  | none => .fault (.noSuchUnit (.dma c))
  | some d => .next (setDma s c (op d))

/-- Performs an operation on the scheduler. -/
def onSched (s : State) (op : SchedRegs → SchedRegs) : Result := .next (setSched s (op s.sched))

end Sys2Proof.Machine
end

