-- ==== Sys2Proof/Machine/Dma.lean ====
section
/-! DEFINITION. The six DMA operations (43_dma.md R164 to R169) and the flag pipeline every one but the reset performs (R163). -/

namespace Sys2Proof.Machine

/-- The flag pipeline (43_dma.md R163): at every edge without reset, whatever the operation. -/
def flagPipeline (d : DmaRegs) : DmaRegs := { d with readWait := dmaIssueCond d, readReq := d.readWait }

/-- DMA.RESET on the registers (43_dma.md R164). -/
def dmaReset (_ : DmaRegs) : DmaRegs := dmaResetRegs

/-- DMA.IDLE on the registers (43_dma.md R165). -/
def dmaIdle (d : DmaRegs) : DmaRegs := flagPipeline d

/-- DMA.ACCEPT on the registers (43_dma.md R166), with the parameters on its ports. -/
def dmaAccept (base : Nat) (num : U32) (d : DmaRegs) : DmaRegs :=
  { flagPipeline d with
    baseAddr := base
    numSamples := num
    currentAddr := base
    sampleCounter := 0#32
    active := true
    busy := true }

/-- DMA.ISSUE on the registers (43_dma.md R167); the next address wraps modulo `2^AW` (R175). -/
def dmaIssue (p : Params) (d : DmaRegs) : DmaRegs :=
  { flagPipeline d with
    memAddr := d.currentAddr
    currentAddr := wrapAddr p (d.currentAddr + 1)
    sampleCounter := d.sampleCounter + 1#32 }

/-- DMA.LOOPEND on the registers (43_dma.md R168). -/
def dmaLoopend (d : DmaRegs) : DmaRegs := { flagPipeline d with active := false }

/-- DMA.DONE on the registers (43_dma.md R169). -/
def dmaDone (d : DmaRegs) : DmaRegs := { flagPipeline d with busy := false }

/-- DMA.RESET (43_dma.md R164). -/
def execDmaReset (c : Nat) (s : State) : Result := onDma c s dmaReset

/-- DMA.IDLE (43_dma.md R165). -/
def execDmaIdle (c : Nat) (s : State) : Result := onDma c s dmaIdle

/-- DMA.ACCEPT (43_dma.md R166). -/
def execDmaAccept (c : Nat) (s : State) : Result := onDma c s (dmaAccept (baseAddrIn s c) (numSamplesIn s c))

/-- DMA.ISSUE (43_dma.md R167). -/
def execDmaIssue (c : Nat) (s : State) : Result := onDma c s (dmaIssue s.cfg)

/-- DMA.LOOPEND (43_dma.md R168). -/
def execDmaLoopend (c : Nat) (s : State) : Result := onDma c s dmaLoopend

/-- DMA.DONE (43_dma.md R169). -/
def execDmaDone (c : Nat) (s : State) : Result := onDma c s dmaDone

end Sys2Proof.Machine
end

