-- ==== Sys2Proof/Machine/Stage.lean ====
section
/-! DEFINITION. The six Stage operations (41_stage.md R112 to R119). -/

namespace Sys2Proof.Machine

/-- `N_i`. -/
def envSize (e : StageEnv) : Nat := stageSize e.n e.stage

/-- `D_i`. -/
def envHalf (e : StageEnv) : Nat := delayLen e.n e.stage

/-- `offset_i`. -/
def envOffset (e : StageEnv) : Nat := initOffset e.n e.stage

/-- Phase 1 on the given registers (41_stage.md R114): emit the stored difference, store the input. -/
def phase1 (e : StageEnv) (r : StageRegs) : StageRegs :=
  { cnt := (r.cnt + 1) % envSize e
    bufIn := r.bufIn.set r.cnt e.x
    bufOut := r.bufOut
    out := r.bufOut.getD r.cnt Sample.zero }

/-- Phase 2 on the given registers (41_stage.md R115): emit the sum, store the twiddled difference; the pair is the butterfly of
40_sample.md R99 at `k = cnt - D_i`. -/
def phase2 (e : StageEnv) (r : StageRegs) : StageRegs :=
  let k := r.cnt - envHalf e
  let bf := butterfly e.draw (r.bufIn.getD k Sample.zero) e.x k (envSize e)
  { cnt := (r.cnt + 1) % envSize e
    bufIn := r.bufIn
    bufOut := r.bufOut.set k bf.2
    out := bf.1 }

/-- What a sync does first: both buffers cleared, the count taken from `offset_i` (41_stage.md R117). -/
def syncClear (e : StageEnv) (r : StageRegs) : StageRegs :=
  { r with cnt := envOffset e, bufIn := clearBuf (envHalf e), bufOut := clearBuf (envHalf e) }

/-- STG.RESET on the registers (41_stage.md R112). -/
def stageReset (e : StageEnv) (_ : StageRegs) : StageRegs := stageResetRegs e.n e.stage

/-- STG.HOLD on the registers (41_stage.md R113): no register is written. -/
def stageHold (_ : StageEnv) (r : StageRegs) : StageRegs := r

/-- STG.SYNC.P1 on the registers (41_stage.md R118): Phase 1 on the cleared registers. -/
def stageSyncP1 (e : StageEnv) (r : StageRegs) : StageRegs := phase1 e (syncClear e r)

/-- STG.SYNC.P2 on the registers (41_stage.md R119): Phase 2 on the cleared registers. -/
def stageSyncP2 (e : StageEnv) (r : StageRegs) : StageRegs := phase2 e (syncClear e r)

/-- STG.RESET (41_stage.md R112). -/
def execStgReset (c i : Nat) (s : State) : Result := onStage c i s stageReset

/-- STG.HOLD (41_stage.md R113). -/
def execStgHold (c i : Nat) (s : State) : Result := onStage c i s stageHold

/-- STG.P1 (41_stage.md R114). -/
def execStgP1 (c i : Nat) (s : State) : Result := onStage c i s phase1

/-- STG.P2 (41_stage.md R115). -/
def execStgP2 (c i : Nat) (s : State) : Result := onStage c i s phase2

/-- STG.SYNC.P1 (41_stage.md R118). -/
def execStgSyncP1 (c i : Nat) (s : State) : Result := onStage c i s stageSyncP1

/-- STG.SYNC.P2 (41_stage.md R119). -/
def execStgSyncP2 (c i : Nat) (s : State) : Result := onStage c i s stageSyncP2

end Sys2Proof.Machine
end

