-- ==== Sys2Proof/Machine/Fft.lean ====
section
/-! DEFINITION. The five FFT operations (42_fft.md R136 to R140) and the register update rules they share (R141 to R144). Each
operation also performs, on every stage of the FFT, the Stage operation it implies. -/

namespace Sys2Proof.Machine

/-- `v` shifted by one, `b` inserted at the head; the tail bit leaves (42_fft.md R141). -/
def shiftIn (b : Bool) (v : List Bool) : List Bool := (b :: v).dropLast

/-- `(x + 1) mod N`, the step of the block counters. -/
def nextMod (n x : Nat) : Nat := (x + 1) % n

/-- `out_cnt_reg` after an enabled edge without sync (42_fft.md R143): advances when the second-oldest entry `v[L-2]` is set. -/
def outCntNext (n : Nat) (f : FftRegs) : Nat :=
  if f.v.getD (latency n - 2) false then nextMod n f.outCntReg else f.outCntReg

/-- The same Stage operation on every stage of core `c`'s FFT, each from the pre-edge state. -/
def allStages (c : Nat) (s : State) (op : StageEnv → StageRegs → StageRegs) (stages : List StageRegs) : List StageRegs :=
  stages.mapIdx (fun i r => op (stageEnv s c i) r)

/-- STG.P1 or STG.P2, as the stage's count selects (30_encoding.md R77 with `sync = 0`). -/
def phaseByCount (e : StageEnv) (r : StageRegs) : StageRegs :=
  if stagePh2 e.n e.stage false r then phase2 e r else phase1 e r

/-- STG.SYNC.P1 or STG.SYNC.P2, as the stage's offset selects (30_encoding.md R77 with `sync = 1`). -/
def syncByOffset (e : StageEnv) (r : StageRegs) : StageRegs :=
  if stagePh2 e.n e.stage true r then stageSyncP2 e r else stageSyncP1 e r

/-- FFT.RESET on the registers (42_fft.md R136). -/
def fftReset (c : Nat) (s : State) (f : FftRegs) : FftRegs :=
  { internalCnt := 0#32
    samplesInCnt := 0
    outCntReg := 0
    v := List.replicate (latency s.cfg.n) false
    stages := allStages c s stageReset f.stages }

/-- FFT.IDLE on the registers (42_fft.md R137). -/
def fftIdle (c : Nat) (s : State) (f : FftRegs) : FftRegs :=
  { f with stages := allStages c s stageHold f.stages }

/-- FFT.FLUSH on the registers (42_fft.md R138). -/
def fftFlush (c : Nat) (s : State) (f : FftRegs) : FftRegs :=
  { internalCnt := f.internalCnt + 1#32
    samplesInCnt := f.samplesInCnt
    outCntReg := outCntNext s.cfg.n f
    v := shiftIn false f.v
    stages := allStages c s phaseByCount f.stages }

/-- FFT.INGEST on the registers (42_fft.md R139). -/
def fftIngest (c : Nat) (s : State) (f : FftRegs) : FftRegs :=
  { internalCnt := f.internalCnt + 1#32
    samplesInCnt := nextMod s.cfg.n f.samplesInCnt
    outCntReg := outCntNext s.cfg.n f
    v := shiftIn true f.v
    stages := allStages c s phaseByCount f.stages }

/-- FFT.SYNC on the registers (42_fft.md R140). -/
def fftSync (c : Nat) (s : State) (f : FftRegs) : FftRegs :=
  { internalCnt := f.internalCnt + 1#32
    samplesInCnt := 1 % s.cfg.n
    outCntReg := s.cfg.n - 1
    v := shiftIn true f.v
    stages := allStages c s syncByOffset f.stages }

/-- FFT.RESET (42_fft.md R136). -/
def execFftReset (c : Nat) (s : State) : Result := onFft c s (fftReset c s)

/-- FFT.IDLE (42_fft.md R137). -/
def execFftIdle (c : Nat) (s : State) : Result := onFft c s (fftIdle c s)

/-- FFT.FLUSH (42_fft.md R138). -/
def execFftFlush (c : Nat) (s : State) : Result := onFft c s (fftFlush c s)

/-- FFT.INGEST (42_fft.md R139). -/
def execFftIngest (c : Nat) (s : State) : Result := onFft c s (fftIngest c s)

/-- FFT.SYNC (42_fft.md R140). -/
def execFftSync (c : Nat) (s : State) : Result := onFft c s (fftSync c s)

end Sys2Proof.Machine
end

