-- ==== Sys2Proof/Machine/Sched.lean ====
section
/-! DEFINITION. The five scheduler operations (44_interleaved.md R197 to R201). -/

namespace Sys2Proof.Machine

/-- SCH.RESET on the registers (44_interleaved.md R197). -/
def schReset (_ : SchedRegs) : SchedRegs := schedResetRegs

/-- SCH.IDLE on the registers (44_interleaved.md R198). -/
def schIdle (r : SchedRegs) : SchedRegs := r

/-- SCH.TRIGGER on the registers (44_interleaved.md R199). -/
def schTrigger (_ : SchedRegs) : SchedRegs := { activeStagger := true, staggerCounter := 0#32 }

/-- SCH.COUNT on the registers (44_interleaved.md R200). -/
def schCount (r : SchedRegs) : SchedRegs := { r with staggerCounter := r.staggerCounter + 1#32 }

/-- SCH.EXIT on the registers (44_interleaved.md R201). -/
def schExit (_ : SchedRegs) : SchedRegs := { activeStagger := false, staggerCounter := 0#32 }

/-- SCH.RESET (44_interleaved.md R197). -/
def execSchReset (s : State) : Result := onSched s schReset

/-- SCH.IDLE (44_interleaved.md R198). -/
def execSchIdle (s : State) : Result := onSched s schIdle

/-- SCH.TRIGGER (44_interleaved.md R199). -/
def execSchTrigger (s : State) : Result := onSched s schTrigger

/-- SCH.COUNT (44_interleaved.md R200). -/
def execSchCount (s : State) : Result := onSched s schCount

/-- SCH.EXIT (44_interleaved.md R201). -/
def execSchExit (s : State) : Result := onSched s schExit

end Sys2Proof.Machine
end

