-- ==== Sys2Proof/Machine/Dispatch.lean ====
section
/-! DEFINITION. What each operation does: one arm per row of spec/opcode_table.json. -/

namespace Sys2Proof.Machine

def exec (i : Instr) (s : State) : Host.Outcome State Fault Refusal :=
  match i with
  | .stgReset c k => Sys2Proof.Machine.execStgReset c k s
  | .stgHold c k => Sys2Proof.Machine.execStgHold c k s
  | .stgP1 c k => Sys2Proof.Machine.execStgP1 c k s
  | .stgP2 c k => Sys2Proof.Machine.execStgP2 c k s
  | .stgSyncP1 c k => Sys2Proof.Machine.execStgSyncP1 c k s
  | .stgSyncP2 c k => Sys2Proof.Machine.execStgSyncP2 c k s
  | .fftReset c => Sys2Proof.Machine.execFftReset c s
  | .fftIdle c => Sys2Proof.Machine.execFftIdle c s
  | .fftFlush c => Sys2Proof.Machine.execFftFlush c s
  | .fftIngest c => Sys2Proof.Machine.execFftIngest c s
  | .fftSync c => Sys2Proof.Machine.execFftSync c s
  | .dmaReset c => Sys2Proof.Machine.execDmaReset c s
  | .dmaIdle c => Sys2Proof.Machine.execDmaIdle c s
  | .dmaAccept c => Sys2Proof.Machine.execDmaAccept c s
  | .dmaIssue c => Sys2Proof.Machine.execDmaIssue c s
  | .dmaLoopend c => Sys2Proof.Machine.execDmaLoopend c s
  | .dmaDone c => Sys2Proof.Machine.execDmaDone c s
  | .schReset => Sys2Proof.Machine.execSchReset s
  | .schIdle => Sys2Proof.Machine.execSchIdle s
  | .schTrigger => Sys2Proof.Machine.execSchTrigger s
  | .schCount => Sys2Proof.Machine.execSchCount s
  | .schExit => Sys2Proof.Machine.execSchExit s

end Sys2Proof.Machine
end

