-- ==== Sys2Proof/Machine/Tick.lean ====
section
/-! DEFINITION. One global tick (44_interleaved.md R202): every unit performs the operation its select word selects, each from the
pre-edge state (00_scope.md R10), the memory steps, and all next values are committed together. Also how an operation of the opcode
table is presented to the machine as the next one to perform. -/

namespace Sys2Proof.Machine

/-- Goes on with a value, or stops with the fault or refusal. -/
def andThen {α β : Type} (o : Host.Outcome α Fault Refusal) (f : α → Host.Outcome β Fault Refusal) :
    Host.Outcome β Fault Refusal :=
  match o with
  | .next a => f a
  | .fault r => .fault r
  | .refused r => .refused r

/-- The values at the indexes of a list, in order, or the first stop. -/
def gather {α : Type} (f : Nat → Host.Outcome α Fault Refusal) : List Nat → Host.Outcome (List α) Fault Refusal
  | [] => .next []
  | k :: ks => andThen (f k) (fun a => andThen (gather f ks) (fun as => .next (a :: as)))

/-- The value of a unit's registers, or the fault that the machine has no such unit. -/
def regsOr {α : Type} (u : UnitId) (r : Option α) : Host.Outcome α Fault Refusal :=
  match r with
  | some a => .next a
  | none => .fault (.noSuchUnit u)

/-- The machine after the operation that a unit's select word selects in this cycle, performed by that unit alone (30_encoding.md
R76); a word that matches no row faults (R82). -/
def runUnit (s : State) (u : UnitId) : Result :=
  match decode u (selectOf s u) with
  | .ok i => exec i s
  | .error _ => .fault (.noOperation u (selectOf s u))

/-- The registers of stage `i` of core `c` after the edge (41_stage.md R111). -/
def nextStage (s : State) (c i : Nat) : Host.Outcome StageRegs Fault Refusal :=
  andThen (runUnit s (.stage c i)) (fun t => regsOr (.stage c i) (stageAt t c i))

/-- The registers of core `c`'s FFT after the edge (42_fft.md R135): its own registers by its own operation, and each stage's by the
operation of that stage. -/
def nextFft (s : State) (c : Nat) : Host.Outcome FftRegs Fault Refusal :=
  andThen (runUnit s (.fft c)) (fun t =>
    andThen (regsOr (.fft c) (fftAt t c)) (fun f =>
      andThen (gather (nextStage s c) (List.range (numStages s.cfg.n))) (fun stages =>
        .next { f with stages := stages })))

/-- The registers of core `c`'s DMA after the edge (43_dma.md R161). -/
def nextDma (s : State) (c : Nat) : Host.Outcome DmaRegs Fault Refusal :=
  andThen (runUnit s (.dma c)) (fun t => regsOr (.dma c) (dmaAt t c))

/-- The registers of core `c` after the edge. -/
def nextCore (s : State) (c : Nat) : Host.Outcome CoreRegs Fault Refusal :=
  andThen (nextDma s c) (fun d => andThen (nextFft s c) (fun f => .next { dma := d, fft := f }))

/-- The registers of the scheduler after the edge (44_interleaved.md R196). -/
def nextSched (s : State) : Host.Outcome SchedRegs Fault Refusal :=
  andThen (runUnit s .sched) (fun t => .next t.sched)

/-- `S[t+1]` from `S[t]` and the inputs of cycle `t` (00_scope.md R9; 44_interleaved.md R202). -/
def tick (s : State) : Result :=
  andThen (nextSched s) (fun sched =>
    andThen (gather (nextCore s) (List.range s.cfg.numCores)) (fun cores =>
      .next
        { cfg := s.cfg
          sched := sched
          cores := cores
          mem := memNext s
          rdata := rdataNext s
          trace := s.trace.tail
          cycle := s.cycle + 1 }))

/-! ### Presenting an operation of the opcode table (notes/assumptions/8.md) -/

/-- The state in an InterleavedFFT whose inputs of this cycle have the given `rst` and `start`. -/
def presentInputs (s : State) (rst start : Bool) : State :=
  { s with
    cfg := { s.cfg with wiring := .interleaved }
    trace := { inputsOf s with rst := rst, start := start } :: s.trace.tail }

/-- The registers under which core 0's DMA has the select word `w`: the scheduler's pulse is its `start`. -/
def presentDma (s : State) (w : Nat) : State :=
  let t := presentInputs s (w.testBit 4) false
  { t with
    sched := { activeStagger := w.testBit 2, staggerCounter := 0#32 }
    cores := t.cores.modify 0 (fun k =>
      { k with dma := { k.dma with
          busy := w.testBit 3, active := w.testBit 1, readWait := false, readReq := false, sampleCounter := 0#32,
          numSamples := if w.testBit 0 then 1#32 else 0#32 } }) }

/-- The registers under which core 0's FFT has the select word `w`: its DMA's `read_req` is its `in_valid`. -/
def presentFft (s : State) (w : Nat) : State :=
  let t := presentInputs s (w.testBit 3) false
  { t with
    cores := t.cores.modify 0 (fun k =>
      { dma := { k.dma with busy := w.testBit 1, active := false, readWait := false, readReq := w.testBit 1 }
        fft := { k.fft with
          samplesInCnt := if w.testBit 1 && !w.testBit 0 then 1 else 0,
          v := (List.replicate (latency s.cfg.n) false).set 0 (w.testBit 2 && !w.testBit 1) } }) }

/-- The registers under which the scheduler has the select word `w`. -/
def presentSched (s : State) (w : Nat) : State :=
  { presentInputs s (w.testBit 3) (w.testBit 1) with
    sched :=
      { activeStagger := w.testBit 2,
        staggerCounter := if w.testBit 0 then BitVec.ofNat 32 (exitBound s.cfg + 1) else 0#32 } }

/-- The registers under which stage 0 of core 0 has the select word `w`. -/
def presentStage (s : State) (w : Nat) : State :=
  let inValid := w.testBit 1 && w.testBit 2
  let t := presentFft s (if w.testBit 3 then 8 else if inValid then 7 else if w.testBit 2 then 4 else 0)
  { t with
    cores := t.cores.modify 0 (fun k =>
      { k with fft := { k.fft with
          stages := k.fft.stages.modify 0 (fun r => { r with cnt := if w.testBit 0 then delayLen s.cfg.n 0 else 0 }) } }) }

/-- The state whose next step has the unit of `decodeTableWord nbits w` perform that operation; the state itself where the word is
no select word. -/
def presentWord (s : State) (nbits w : Nat) : State :=
  match (decodeTableWord nbits w).map unitOf with
  | some (.dma _) => presentDma s w
  | some (.fft _) => presentFft s w
  | some .sched => presentSched s w
  | some (.stage _ _) => presentStage s w
  | none => s

end Sys2Proof.Machine
end

