-- ==== Sys2Proof/Machine/Step.lean ====
section
/-! DEFINITION. One step of the machine: one clock edge (00_scope.md R9). -/

namespace Sys2Proof.Machine

/-- One clock edge. "No state exists for a refused configuration, and no step is taken" (60_exceptions.md R221). -/
def step (s : State) : Host.Outcome State Fault Refusal :=
  match configRefusal s.cfg with
  | some reason => .refused (.illegalConfig reason)
  | none => tick s

/-- The state whose next step performs the operation of the select word `w` (notes/assumptions/8.md). -/
def State.withFetchWord (s : State) (nbits w : Nat) : State := presentWord s nbits w

end Sys2Proof.Machine
end

