-- ==== Sys2Proof/WellFormed.lean ====
section
/-! DEFINITION. Well-formedness: a legal configuration (30_encoding.md R71), and an operation that a unit of it can perform: the unit
exists, and a SYNC operation of a stage is of the phase its offset selects (41_stage.md R118, R119). -/

namespace Sys2Proof

/-- The configuration is legal by 30_encoding.md R71. -/
abbrev Params.Legal (p : Params) : Prop := Machine.configRefusal p = none

/-- Core `c` exists: `c` in `0 .. NUM_CORES-1` (44_interleaved.md R190). -/
abbrev Params.HasCore (p : Params) (c : Nat) : Prop := c < p.numCores

/-- Stage `i` of core `c` exists: `i` in `0 .. K-1` (10_state.md R31). -/
abbrev Params.HasStage (p : Params) (c i : Nat) : Prop := p.HasCore c ∧ i < Machine.numStages p.n

/-- The unit exists in the configuration. -/
def UnitId.wf (p : Params) : UnitId → Bool
  | .stage c i => decide (p.HasStage c i)
  | .fft c => decide (p.HasCore c)
  | .dma c => decide (p.HasCore c)
  | .sched => true

/-- The operation is one that a unit of the configuration can perform. -/
def Instr.wf (p : Params) : Instr → Bool
  | .stgReset c i => decide (p.HasStage c i)
  | .stgHold c i => decide (p.HasStage c i)
  | .stgP1 c i => decide (p.HasStage c i)
  | .stgP2 c i => decide (p.HasStage c i)
  | .stgSyncP1 c i => decide (p.HasStage c i ∧ Machine.initOffset p.n i < Machine.delayLen p.n i)
  | .stgSyncP2 c i => decide (p.HasStage c i ∧ Machine.delayLen p.n i ≤ Machine.initOffset p.n i)
  | .fftReset c => decide (p.HasCore c)
  | .fftIdle c => decide (p.HasCore c)
  | .fftFlush c => decide (p.HasCore c)
  | .fftIngest c => decide (p.HasCore c)
  | .fftSync c => decide (p.HasCore c)
  | .dmaReset c => decide (p.HasCore c)
  | .dmaIdle c => decide (p.HasCore c)
  | .dmaAccept c => decide (p.HasCore c)
  | .dmaIssue c => decide (p.HasCore c)
  | .dmaLoopend c => decide (p.HasCore c)
  | .dmaDone c => decide (p.HasCore c)
  | .schReset => true
  | .schIdle => true
  | .schTrigger => true
  | .schCount => true
  | .schExit => true

end Sys2Proof
end

