-- ==== Sys2Proof/Safety.lean ====
section
/-! DEFINITION. What counts as a sound state and a finished run: the invariant of the states reachable from a reset (10_state.md R23,
R28 to R31, R41, R42; 44_interleaved.md R195), and the quiescent state (70_reset_and_hazards.md R265). -/

namespace Sys2Proof.Machine

/-- The registers of stage `i` are in range: `cnt` in `[0, N_i)` and `D_i` elements in each buffer (10_state.md R23 to R25). -/
abbrev StageOk (n i : Nat) (r : StageRegs) : Prop :=
  r.cnt < stageSize n i ∧ r.bufIn.length = delayLen n i ∧ r.bufOut.length = delayLen n i

/-- The registers of an FFT are in range (10_state.md R28 to R31). -/
abbrev FftOk (n : Nat) (f : FftRegs) : Prop :=
  f.samplesInCnt < n ∧ f.outCntReg < n ∧ f.v.length = latency n ∧ f.stages.length = numStages n ∧
    ∀ i, (h : i < f.stages.length) → StageOk n i f.stages[i]

/-- The registers of a DMA are in range (10_state.md R32, R35, R36) and related as 10_state.md R41 says. -/
abbrev DmaOk (p : Params) (d : DmaRegs) : Prop :=
  (d.baseAddr < 2 ^ p.aw ∧ d.currentAddr < 2 ^ p.aw ∧ d.memAddr < 2 ^ p.aw) ∧
    (d.busy = false → d.active = false ∧ d.readWait = false ∧ d.readReq = false) ∧
    (d.active = true → d.busy = true) ∧
    d.sampleCounter.toNat ≤ d.numSamples.toNat ∧
    (d.busy = true ∧ d.active = false → d.readWait = false)

/-- The scheduler's counter is 0 in Idle, and one past the exit bound at most (10_state.md R42; 44_interleaved.md R200). -/
abbrev SchedOk (p : Params) (r : SchedRegs) : Prop :=
  (r.activeStagger = false → r.staggerCounter = 0#32) ∧ r.staggerCounter.toNat ≤ exitBound p + 1

/-- The memory is in its canonical form and lists no address outside `M[0 .. 2^AW - 1]` (20_memory.md R51). -/
abbrev MemOk (p : Params) (m : Memory) : Prop :=
  Memory.wf m = true ∧ ∀ x ∈ m, x.1 < 2 ^ p.aw

/-- The invariant of the states reachable from a reset. -/
abbrev State.Inv (s : State) : Prop :=
  s.cfg.Legal ∧ SchedOk s.cfg s.sched ∧ s.cores.length = s.cfg.numCores ∧
    (∀ k ∈ s.cores, DmaOk s.cfg k.dma ∧ FftOk s.cfg.n k.fft) ∧
    MemOk s.cfg s.mem ∧ s.rdata.length = s.cfg.numCores

/-- Only the shape of the registers, which their types fix in the hardware: how many units there are and how long each register
array is. The values are arbitrary, as after power-on (70_reset_and_hazards.md R241). -/
abbrev State.Shaped (s : State) : Prop :=
  s.cfg.Legal ∧ s.cores.length = s.cfg.numCores ∧
    ∀ k ∈ s.cores, k.fft.stages.length = numStages s.cfg.n

/-- QUIESCENT (70_reset_and_hazards.md R265): the scheduler idle, every DMA not busy, every validity bit 0. -/
abbrev State.Quiescent (s : State) : Prop :=
  s.sched.activeStagger = false ∧ ∀ k ∈ s.cores, k.dma.busy = false ∧ ∀ b ∈ k.fft.v, b = false

/-! ### What the statements speak in -/

/-- As many words, each 0. -/
def clearWords (ws : List U64) : List U64 := ws.map (fun _ => 0#64)

/-- The words of unit `u` that decode to operation `i` are those that match `pattern` on the bits of `mask` (30_encoding.md R76). -/
def EncodedAs (u : UnitId) (i : Instr) (mask pattern : BitVec 8) : Prop :=
  ∀ w : BitVec 8, w.toNat < 2 ^ selectWidth u → (decode u w = .ok i ↔ w &&& mask = pattern)

/-- The registers of an FFT that are not its stages' (10_state.md R27 to R30). -/
def ownRegs (f : FftRegs) : U32 × Nat × Nat × List Bool := (f.internalCnt, f.samplesInCnt, f.outCntReg, f.v)

/-- `v'` is `v` shifted by one with `b` inserted at the head (42_fft.md R141): `v'[0] = b`, `v'[j] = v[j-1]`. -/
def Shifted (b : Bool) (v v' : List Bool) : Prop :=
  v'.length = v.length ∧ ∀ j, j < v.length → v'.getD j false = if j = 0 then b else v.getD (j - 1) false

/-- In `t`, every stage of core `c` has the registers that the operation `op i r`, performed by stage `i` with registers `r` in `s`,
leaves it (42_fft.md R135: "the stage operations they imply"). -/
def StagesPerform (op : Nat → StageRegs → Instr) (c : Nat) (s t : State) : Prop :=
  ∀ i r, stageAt s c i = some r → ∃ u, exec (op i r) s = .next u ∧ stageAt t c i = stageAt u c i

/-- `t` has everything of `s` outside core `c`: the configuration, the scheduler, the other cores, every word of memory, the read
ports, and the model's own fields. -/
def SameOutsideCore (c : Nat) (s t : State) : Prop :=
  t.cfg = s.cfg ∧ t.sched = s.sched ∧ t.cores.length = s.cores.length ∧ (∀ k, k ≠ c → t.cores[k]? = s.cores[k]?) ∧
    (∀ a, memRead t.mem a = memRead s.mem a) ∧ t.rdata = s.rdata ∧ t.trace = s.trace ∧ t.cycle = s.cycle

/-- The state `k` cycles after `s` (00_scope.md R9), where the machine does not stop before. -/
def StateAt (s : State) (k : Nat) (t : State) : Prop := Host.Core.run Sys2Proof.core k s = .next t

/-- `rst = 0` in the first `k` cycles from `s` on. -/
def NoResetFor (s : State) (k : Nat) : Prop := ∀ j, j < k → (s.trace.getD j Inputs.idle).rst = false

/-- The registers of a stage after `k` enabled edges without sync, from the registers `r`; edge `j` has the input `x j` and draws its
NaN results at `d j` (41_stage.md R116, R120). -/
def stageRun (n i : Nat) (x : Nat → Sample) (d : Nat → Draw) (r : StageRegs) : Nat → StageRegs
  | 0 => r
  | k + 1 => phaseByCount { n := n, stage := i, x := x k, draw := d k } (stageRun n i x d r k)

/-- The state with the value of every Sample register of the stages forgotten, and everything that decides an operation kept. -/
def forgetSamples (s : State) : State :=
  { s with
    cores := s.cores.map (fun k =>
      { k with fft := { k.fft with
          stages := k.fft.stages.map (fun r =>
            { cnt := r.cnt, bufIn := clearBuf r.bufIn.length, bufOut := clearBuf r.bufOut.length, out := Sample.zero }) } })
    mem := []
    rdata := clearWords s.rdata }

end Sys2Proof.Machine
end

