-- ==== Sys2Proof/Certificates/Slice0/Obligations.lean ====
section
/-! DEFINITION. The statements for the provers. Each docstring names the rules of spec/ it formalises. -/

open Sys2Proof Sys2Proof.Machine

/-! ### Encodings (30_encoding.md) -/

/-- Decoding the select word of any operation, with anything on the bits its row does not compare, gives the operation back
(R76, R78 to R81). -/
def Obligations.DecodeOfEncodeIsTheOperation : Prop :=
  ∀ (i : Instr) (extra : BitVec 8), decode (unitOf i) (encodeWith extra i) = .ok i

/-- R76: "The unit's operation at the edge that ends the cycle is the operation of the row whose `(select & mask) == match`." -/
def Obligations.DecodeSelectsTheMatchingRow : Prop :=
  ∀ (u : UnitId) (w : BitVec 8) (i : Instr),
    decode u w = .ok i ↔ unitOf i = u ∧ w.toNat < 2 ^ selectWidth u ∧ w &&& maskOf i = matchOf i

/-- R82 (the spec marks it derived): the select words that match no row, and no others; every Stage select word matches a row. -/
def Obligations.UnmatchedWordsAreTheListedOnes : Prop :=
  ∀ (c i : Nat) (w : BitVec 8),
    (w.toNat < 16 → decode (.stage c i) w ≠ .error .noRow) ∧
    (w.toNat < 16 → (decode (.fft c) w = .error .noRow ↔ w ∈ [0b0001#8, 0b0010#8, 0b0011#8, 0b0101#8])) ∧
    (w.toNat < 32 → (decode (.dma c) w = .error .noRow ↔
      w ∈ [0b00001#8, 0b00010#8, 0b00011#8, 0b00101#8, 0b00110#8, 0b00111#8, 0b01001#8, 0b01101#8])) ∧
    (w.toNat < 16 → (decode .sched w = .error .noRow ↔ w ∈ [0b0001#8, 0b0011#8]))

/-- Words written out from the operation maps of R78 to R81, one or two of each unit. -/
def Obligations.DecodeReadsWordsOfTheMaps : Prop :=
  decode (.stage 0 1) 0b0111#8 = .ok (.stgSyncP2 0 1) ∧ decode (.stage 2 0) 0b0011#8 = .ok (.stgHold 2 0) ∧
    decode (.fft 1) 0b0110#8 = .ok (.fftIngest 1) ∧ decode (.fft 0) 0b1111#8 = .ok (.fftReset 0) ∧
    decode (.dma 0) 0b01111#8 = .ok (.dmaIssue 0) ∧ decode (.dma 3) 0b01100#8 = .ok (.dmaDone 3) ∧
    decode .sched 0b0110#8 = .ok .schCount ∧ decode .sched 0b0010#8 = .ok .schTrigger

/-- R83: the `rst` bit is the most significant bit of every select word, and with `rst = 1` every unit performs its RESET
operation. -/
def Obligations.ResetTakesPriorityInEverySelectWord : Prop :=
  ∀ (s : State) (u : UnitId),
    (selectOf s u).getLsbD (selectWidth u - 1) = (inputsOf s).rst ∧
    ((inputsOf s).rst = true → decode u (selectOf s u) = .ok (match u with
      | .stage c i => .stgReset c i
      | .fft c => .fftReset c
      | .dma c => .dmaReset c
      | .sched => .schReset))

/-- R77, R79, R80, R81: which signal each bit of a select word is; R131, R132, R133, R162, R195: what the signals are. -/
def Obligations.SelectWordsAreMadeOfTheNamedSignals : Prop :=
  ∀ (s : State) (c i : Nat) (d : DmaRegs) (f : FftRegs) (r : StageRegs),
    dmaAt s c = some d → fftAt s c = some f → stageAt s c i = some r →
    let inflight := decide (∃ b ∈ f.v, b = true)
    let enable := inValidOf s c || inflight
    let sync := decide (f.samplesInCnt = 0) && inValidOf s c && !inflight
    let cntEff := if sync then initOffset s.cfg.n i else r.cnt
    ((selectOf s (.stage c i)).getLsbD 2 = enable ∧ (selectOf s (.stage c i)).getLsbD 1 = sync ∧
      (selectOf s (.stage c i)).getLsbD 0 = decide (delayLen s.cfg.n i ≤ cntEff)) ∧
    ((selectOf s (.fft c)).getLsbD 2 = enable ∧ (selectOf s (.fft c)).getLsbD 1 = inValidOf s c ∧
      (selectOf s (.fft c)).getLsbD 0 = sync) ∧
    ((selectOf s (.dma c)).getLsbD 3 = d.busy ∧ (selectOf s (.dma c)).getLsbD 2 = dmaStart s c ∧
      (selectOf s (.dma c)).getLsbD 1 = d.active ∧
      (selectOf s (.dma c)).getLsbD 0 = (d.active && decide (d.sampleCounter.toNat < d.numSamples.toNat))) ∧
    ((selectOf s .sched).getLsbD 2 = s.sched.activeStagger ∧ (selectOf s .sched).getLsbD 1 = globalStart s ∧
      (selectOf s .sched).getLsbD 0 =
        decide (s.cfg.numCores * s.cfg.hopSize.toNat + 2 < s.sched.staggerCounter.toNat))

/-- R191, R194, R134, R171, R172: what drives each unit's inputs in an InterleavedFFT. -/
def Obligations.InterleavedWiringDrivesTheUnits : Prop :=
  ∀ (s : State) (c : Nat) (d : DmaRegs), s.cfg.wiring = .interleaved → dmaAt s c = some d →
    globalStart s = (inputsOf s).start ∧
    dmaStart s c = (s.sched.activeStagger && decide (s.sched.staggerCounter.toNat = c * s.cfg.hopSize.toNat)) ∧
    inValidOf s c = d.readReq ∧
    inDataOf s c = (if d.readReq then unpack (s.rdata.getD c 0#64) else Sample.zero) ∧
    stageInput s c 0 = inDataOf s c ∧
    ∀ (i : Nat) (r : StageRegs), stageAt s c i = some r → stageInput s c (i + 1) = r.out

/-! ### Stage operations (41_stage.md) -/

/-- R112: STG.RESET. -/
def Obligations.StgResetReturnsToOffset : Prop :=
  ∀ (c i : Nat) (s : State) (r : StageRegs), stageAt s c i = some r →
    EncodedAs (.stage c i) (.stgReset c i) 0b1000 0b1000 ∧
    ∃ t, exec (.stgReset c i) s = .next t ∧
      stageAt t c i = some
        { cnt := initOffset s.cfg.n i
          bufIn := List.replicate (delayLen s.cfg.n i) Sample.zero
          bufOut := List.replicate (delayLen s.cfg.n i) Sample.zero
          out := Sample.zero }

/-- R113: STG.HOLD writes no register. -/
def Obligations.StgHoldFreezesTheStage : Prop :=
  ∀ (c i : Nat) (s : State) (r : StageRegs), stageAt s c i = some r →
    EncodedAs (.stage c i) (.stgHold c i) 0b1100 0b0000 ∧
    ∃ t, exec (.stgHold c i) s = .next t ∧ stageAt t c i = some r

/-- R114: STG.P1. -/
def Obligations.StgPhase1StoresAndEmits : Prop :=
  ∀ (c i : Nat) (s : State) (r : StageRegs), stageAt s c i = some r → r.cnt < delayLen s.cfg.n i →
    EncodedAs (.stage c i) (.stgP1 c i) 0b1111 0b0100 ∧
    ∃ t, exec (.stgP1 c i) s = .next t ∧
      stageAt t c i = some
        { cnt := (r.cnt + 1) % stageSize s.cfg.n i
          bufIn := r.bufIn.set r.cnt (stageInput s c i)
          bufOut := r.bufOut
          out := r.bufOut.getD r.cnt Sample.zero }

/-- R115: STG.P2. A NaN result is a free draw (R100: "a model draws any NaN"); that it is drawn at the key (cycle, core, stage) is the
model's (DESIGN CHOICE, notes/assumptions/4.md). -/
def Obligations.StgPhase2EmitsSumAndStoresDifference : Prop :=
  ∀ (c i : Nat) (s : State) (r : StageRegs), stageAt s c i = some r → delayLen s.cfg.n i ≤ r.cnt →
    let k := r.cnt - delayLen s.cfg.n i
    let a := r.bufIn.getD k Sample.zero
    let x := stageInput s c i
    let d : Draw := ⟨s.cycle, c, i⟩
    EncodedAs (.stage c i) (.stgP2 c i) 0b1111 0b0101 ∧
    ∃ t, exec (.stgP2 c i) s = .next t ∧
      stageAt t c i = some
        { cnt := (r.cnt + 1) % stageSize s.cfg.n i
          bufIn := r.bufIn
          bufOut := r.bufOut.set k (smul d (ssub d a x) (Config.twiddle k (stageSize s.cfg.n i)))
          out := sadd d a x }

/-- R118: STG.SYNC.P1; stage 0 has the offset 0. -/
def Obligations.StgSyncPhase1StartsAFreshBlock : Prop :=
  ∀ (c i : Nat) (s : State) (r : StageRegs), stageAt s c i = some r → initOffset s.cfg.n i < delayLen s.cfg.n i →
    EncodedAs (.stage c i) (.stgSyncP1 c i) 0b1111 0b0110 ∧
    ∃ t, exec (.stgSyncP1 c i) s = .next t ∧
      stageAt t c i = some
        { cnt := (initOffset s.cfg.n i + 1) % stageSize s.cfg.n i
          bufIn := (List.replicate (delayLen s.cfg.n i) Sample.zero).set (initOffset s.cfg.n i) (stageInput s c i)
          bufOut := List.replicate (delayLen s.cfg.n i) Sample.zero
          out := Sample.zero } ∧
      initOffset s.cfg.n 0 = 0

/-- R119: STG.SYNC.P2. A NaN result is a free draw; that it is drawn at the key (cycle, core, stage) is the model's (DESIGN CHOICE,
notes/assumptions/4.md). -/
def Obligations.StgSyncPhase2StartsAFreshBlock : Prop :=
  ∀ (c i : Nat) (s : State) (r : StageRegs), stageAt s c i = some r →
    delayLen s.cfg.n i ≤ initOffset s.cfg.n i →
    let k := initOffset s.cfg.n i - delayLen s.cfg.n i
    let x := stageInput s c i
    let d : Draw := ⟨s.cycle, c, i⟩
    EncodedAs (.stage c i) (.stgSyncP2 c i) 0b1111 0b0111 ∧
    ∃ t, exec (.stgSyncP2 c i) s = .next t ∧
      stageAt t c i = some
        { cnt := (initOffset s.cfg.n i + 1) % stageSize s.cfg.n i
          bufIn := List.replicate (delayLen s.cfg.n i) Sample.zero
          bufOut := (List.replicate (delayLen s.cfg.n i) Sample.zero).set k
            (smul d (ssub d Sample.zero x) (Config.twiddle k (stageSize s.cfg.n i)))
          out := sadd d Sample.zero x }

/-- What the six Stage operations leave unchanged: everything but the registers of their own stage (10_state.md R22). -/
def Obligations.StageOperationsWriteTheirStageAlone : Prop :=
  ∀ (c i : Nat) (s t : State) (op : Instr),
    op ∈ [.stgReset c i, .stgHold c i, .stgP1 c i, .stgP2 c i, .stgSyncP1 c i, .stgSyncP2 c i] →
    exec op s = .next t →
    SameOutsideCore c s t ∧ dmaAt t c = dmaAt s c ∧ (fftAt t c).map ownRegs = (fftAt s c).map ownRegs ∧
      ∀ j, j ≠ i → stageAt t c j = stageAt s c j

/-! ### FFT operations (42_fft.md) -/

/-- R136: FFT.RESET. -/
def Obligations.FftResetClearsTheFft : Prop :=
  ∀ (c : Nat) (s : State) (f : FftRegs), fftAt s c = some f →
    EncodedAs (.fft c) (.fftReset c) 0b1000 0b1000 ∧
    ∃ t f', exec (.fftReset c) s = .next t ∧ fftAt t c = some f' ∧
      f'.internalCnt = 0#32 ∧ f'.samplesInCnt = 0 ∧ f'.outCntReg = 0 ∧ f'.v = List.replicate (latency s.cfg.n) false ∧
      f'.stages.length = f.stages.length ∧ StagesPerform (fun i _ => .stgReset c i) c s t

/-- R137: FFT.IDLE writes no register; every stage performs STG.HOLD. -/
def Obligations.FftIdleFreezesTheFft : Prop :=
  ∀ (c : Nat) (s : State) (f : FftRegs), fftAt s c = some f →
    EncodedAs (.fft c) (.fftIdle c) 0b1111 0b0000 ∧
    ∃ t, exec (.fftIdle c) s = .next t ∧ fftAt t c = some f ∧ StagesPerform (fun i _ => .stgHold c i) c s t

/-- R138, R141 to R144: FFT.FLUSH. -/
def Obligations.FftFlushClocksThePipeline : Prop :=
  ∀ (c : Nat) (s : State) (f : FftRegs), fftAt s c = some f →
    EncodedAs (.fft c) (.fftFlush c) 0b1111 0b0100 ∧
    ∃ t f', exec (.fftFlush c) s = .next t ∧ fftAt t c = some f' ∧
      Shifted false f.v f'.v ∧ f'.samplesInCnt = f.samplesInCnt ∧
      f'.outCntReg = (if f.v.getD (latency s.cfg.n - 2) false then (f.outCntReg + 1) % s.cfg.n else f.outCntReg) ∧
      f'.internalCnt.toNat = (f.internalCnt.toNat + 1) % 2 ^ 32 ∧
      f'.stages.length = f.stages.length ∧
      StagesPerform (fun i r => if delayLen s.cfg.n i ≤ r.cnt then .stgP2 c i else .stgP1 c i) c s t

/-- R139, R141 to R144: FFT.INGEST. -/
def Obligations.FftIngestTakesASample : Prop :=
  ∀ (c : Nat) (s : State) (f : FftRegs), fftAt s c = some f →
    EncodedAs (.fft c) (.fftIngest c) 0b1111 0b0110 ∧
    ∃ t f', exec (.fftIngest c) s = .next t ∧ fftAt t c = some f' ∧
      Shifted true f.v f'.v ∧ f'.samplesInCnt = (f.samplesInCnt + 1) % s.cfg.n ∧
      f'.outCntReg = (if f.v.getD (latency s.cfg.n - 2) false then (f.outCntReg + 1) % s.cfg.n else f.outCntReg) ∧
      f'.internalCnt.toNat = (f.internalCnt.toNat + 1) % 2 ^ 32 ∧
      f'.stages.length = f.stages.length ∧
      StagesPerform (fun i r => if delayLen s.cfg.n i ≤ r.cnt then .stgP2 c i else .stgP1 c i) c s t

/-- R140, R141 to R144: FFT.SYNC. -/
def Obligations.FftSyncStartsABlock : Prop :=
  ∀ (c : Nat) (s : State) (f : FftRegs), fftAt s c = some f →
    EncodedAs (.fft c) (.fftSync c) 0b1111 0b0111 ∧
    ∃ t f', exec (.fftSync c) s = .next t ∧ fftAt t c = some f' ∧
      Shifted true f.v f'.v ∧ f'.samplesInCnt = 1 % s.cfg.n ∧ f'.outCntReg = s.cfg.n - 1 ∧
      f'.internalCnt.toNat = (f.internalCnt.toNat + 1) % 2 ^ 32 ∧
      f'.stages.length = f.stages.length ∧
      StagesPerform
        (fun i _ => if delayLen s.cfg.n i ≤ initOffset s.cfg.n i then .stgSyncP2 c i else .stgSyncP1 c i) c s t

/-- What the five FFT operations leave unchanged: everything but the registers of their own FFT (10_state.md R22). -/
def Obligations.FftOperationsWriteTheirFftAlone : Prop :=
  ∀ (c : Nat) (s t : State) (op : Instr), op ∈ [.fftReset c, .fftIdle c, .fftFlush c, .fftIngest c, .fftSync c] →
    exec op s = .next t → SameOutsideCore c s t ∧ dmaAt t c = dmaAt s c

/-! ### DMA operations (43_dma.md) -/

/-- R164: DMA.RESET. -/
def Obligations.DmaResetClearsTheDma : Prop :=
  ∀ (c : Nat) (s : State) (d : DmaRegs), dmaAt s c = some d →
    EncodedAs (.dma c) (.dmaReset c) 0b10000 0b10000 ∧
    ∃ t, exec (.dmaReset c) s = .next t ∧
      dmaAt t c = some
        { baseAddr := 0, numSamples := 0#32, sampleCounter := 0#32, currentAddr := 0, memAddr := 0,
          readWait := false, readReq := false, active := false, busy := false }

/-- R165 with R163: DMA.IDLE. -/
def Obligations.DmaIdleMovesTheFlagsAlone : Prop :=
  ∀ (c : Nat) (s : State) (d : DmaRegs), dmaAt s c = some d →
    EncodedAs (.dma c) (.dmaIdle c) 0b11111 0b00000 ∧
    ∃ t, exec (.dmaIdle c) s = .next t ∧
      dmaAt t c = some
        { d with
          readWait := d.active && decide (d.sampleCounter.toNat < d.numSamples.toNat), readReq := d.readWait }

/-- R166 with R163: DMA.ACCEPT latches the parameters on the DMA's ports, the address being a value of `AW` bits (R74). -/
def Obligations.DmaAcceptLatchesTheTransfer : Prop :=
  ∀ (c : Nat) (s : State) (d : DmaRegs), dmaAt s c = some d →
    let port := (inputsOf s).xfer.getD c ⟨0, 0#32⟩
    port.baseAddrIn < 2 ^ s.cfg.aw →
    EncodedAs (.dma c) (.dmaAccept c) 0b11111 0b00100 ∧
    ∃ t, exec (.dmaAccept c) s = .next t ∧
      dmaAt t c = some
        { baseAddr := port.baseAddrIn
          numSamples := port.numSamplesIn
          currentAddr := port.baseAddrIn
          sampleCounter := 0#32
          active := true
          busy := true
          memAddr := d.memAddr
          readWait := d.active && decide (d.sampleCounter.toNat < d.numSamples.toNat)
          readReq := d.readWait }

/-- R167 with R163: DMA.ISSUE, the next address wrapping modulo `2^AW` (R175). -/
def Obligations.DmaIssueDrivesTheNextAddress : Prop :=
  ∀ (c : Nat) (s : State) (d : DmaRegs), dmaAt s c = some d → d.active = true →
    d.sampleCounter.toNat < d.numSamples.toNat →
    EncodedAs (.dma c) (.dmaIssue c) 0b11011 0b01011 ∧
    ∃ t d', exec (.dmaIssue c) s = .next t ∧ dmaAt t c = some d' ∧
      d'.memAddr = d.currentAddr ∧ d'.currentAddr = (d.currentAddr + 1) % 2 ^ s.cfg.aw ∧
      d'.sampleCounter.toNat = d.sampleCounter.toNat + 1 ∧ d'.readWait = true ∧ d'.readReq = d.readWait ∧
      d'.baseAddr = d.baseAddr ∧ d'.numSamples = d.numSamples ∧ d'.active = d.active ∧ d'.busy = d.busy

/-- R168 with R163: DMA.LOOPEND. -/
def Obligations.DmaLoopendEndsTheIssueLoop : Prop :=
  ∀ (c : Nat) (s : State) (d : DmaRegs), dmaAt s c = some d →
    EncodedAs (.dma c) (.dmaLoopend c) 0b11011 0b01010 ∧
    ∃ t, exec (.dmaLoopend c) s = .next t ∧
      dmaAt t c = some
        { d with
          active := false
          readWait := d.active && decide (d.sampleCounter.toNat < d.numSamples.toNat), readReq := d.readWait }

/-- R169 with R163: DMA.DONE. -/
def Obligations.DmaDoneDropsBusy : Prop :=
  ∀ (c : Nat) (s : State) (d : DmaRegs), dmaAt s c = some d →
    EncodedAs (.dma c) (.dmaDone c) 0b11011 0b01000 ∧
    ∃ t, exec (.dmaDone c) s = .next t ∧
      dmaAt t c = some
        { d with
          busy := false
          readWait := d.active && decide (d.sampleCounter.toNat < d.numSamples.toNat), readReq := d.readWait }

/-- What the six DMA operations leave unchanged: everything but the registers of their own DMA (10_state.md R22). -/
def Obligations.DmaOperationsWriteTheirDmaAlone : Prop :=
  ∀ (c : Nat) (s t : State) (op : Instr),
    op ∈ [.dmaReset c, .dmaIdle c, .dmaAccept c, .dmaIssue c, .dmaLoopend c, .dmaDone c] →
    exec op s = .next t → SameOutsideCore c s t ∧ fftAt t c = fftAt s c

/-! ### Scheduler operations (44_interleaved.md) -/

/-- R197: SCH.RESET. -/
def Obligations.SchResetGoesIdle : Prop :=
  ∀ s : State, EncodedAs .sched .schReset 0b1000 0b1000 ∧
    ∃ t, exec .schReset s = .next t ∧ t.sched = { activeStagger := false, staggerCounter := 0#32 }

/-- R198: SCH.IDLE writes no register. -/
def Obligations.SchIdleKeepsTheScheduler : Prop :=
  ∀ s : State, EncodedAs .sched .schIdle 0b1111 0b0000 ∧
    ∃ t, exec .schIdle s = .next t ∧ t.sched = s.sched

/-- R199: SCH.TRIGGER. -/
def Obligations.SchTriggerStartsStaggering : Prop :=
  ∀ s : State, EncodedAs .sched .schTrigger 0b1111 0b0010 ∧
    ∃ t, exec .schTrigger s = .next t ∧ t.sched = { activeStagger := true, staggerCounter := 0#32 }

/-- R200: SCH.COUNT; the counter does not wrap where it has not passed the exit bound of a legal configuration. -/
def Obligations.SchCountAdvancesTheCounter : Prop :=
  ∀ s : State, s.cfg.Legal → s.sched.staggerCounter.toNat ≤ s.cfg.numCores * s.cfg.hopSize.toNat + 2 →
    EncodedAs .sched .schCount 0b1101 0b0100 ∧
    ∃ t, exec .schCount s = .next t ∧ t.sched.activeStagger = s.sched.activeStagger ∧
      t.sched.staggerCounter.toNat = s.sched.staggerCounter.toNat + 1

/-- R201: SCH.EXIT. -/
def Obligations.SchExitGoesIdle : Prop :=
  ∀ s : State, EncodedAs .sched .schExit 0b1101 0b0101 ∧
    ∃ t, exec .schExit s = .next t ∧ t.sched = { activeStagger := false, staggerCounter := 0#32 }

/-- What the five scheduler operations leave unchanged: everything but the scheduler's registers. -/
def Obligations.SchedulerOperationsWriteTheSchedulerAlone : Prop :=
  ∀ (s t : State) (op : Instr), op ∈ [.schReset, .schIdle, .schTrigger, .schCount, .schExit] →
    exec op s = .next t →
    t.cfg = s.cfg ∧ t.cores = s.cores ∧ (∀ a, memRead t.mem a = memRead s.mem a) ∧ t.rdata = s.rdata ∧
      t.trace = s.trace ∧ t.cycle = s.cycle

/-- An operation addressed to a unit the machine does not have stops with the fault of that name (DESIGN
CHOICE, notes/assumptions/10.md). -/
def Obligations.OperationsOfAbsentUnitsFault : Prop :=
  ∀ (i : Instr) (s : State),
    (match unitOf i with
      | .stage c k => stageAt s c k = none
      | .fft c => fftAt s c = none
      | .dma c => dmaAt s c = none
      | .sched => False) →
    exec i s = .fault (.noSuchUnit (unitOf i))

/-! ### The clock edge -/

/-- R202, R10, R111, R135, R161, R196: a step has every unit perform the operation its select word decodes to, each from the pre-edge
state, and commits all of them together with the memory's step. The trace and the cycle count are the model's own fields (DESIGN
CHOICE, notes/assumptions/1.md and 4.md). -/
def Obligations.StepRunsTheSelectedOperations : Prop :=
  ∀ (s : State) (op : UnitId → Instr) (after : UnitId → State), s.cfg.Legal →
    (∀ u : UnitId, u.wf s.cfg = true → decode u (selectOf s u) = .ok (op u) ∧ exec (op u) s = .next (after u)) →
    ∃ t, step s = .next t ∧ t.sched = (after .sched).sched ∧ t.cores.length = s.cfg.numCores ∧
      (∀ c, c < s.cfg.numCores →
        dmaAt t c = dmaAt (after (.dma c)) c ∧
        (fftAt t c).map ownRegs = (fftAt (after (.fft c)) c).map ownRegs ∧
        ∀ i, i < numStages s.cfg.n → stageAt t c i = stageAt (after (.stage c i)) c i) ∧
      t.cfg = s.cfg ∧ t.mem = memNext s ∧ t.rdata = rdataNext s ∧ t.trace = s.trace.tail ∧ t.cycle = s.cycle + 1

/-- R82 (the spec marks it derived): a step whose unit meets a select word that matches no row stops with a fault, and never picks
an operation. -/
def Obligations.StepFaultsWhereNoRowMatches : Prop :=
  ∀ (s : State) (u : UnitId) (e : DecodeError), s.cfg.Legal → u.wf s.cfg = true →
    decode u (selectOf s u) = .error e → ∃ fault, step s = .fault fault

/-- R71, R221: which configurations are legal, and that a step in any other is refused by name. -/
def Obligations.IllegalConfigurationsAreRefused : Prop :=
  (∀ p : Params, p.Legal ↔
    (∃ k, p.n = 2 ^ k) ∧ 2 ≤ p.n ∧ p.n ≤ 2 ^ 31 ∧ 1 ≤ p.aw ∧ p.dw = 64 ∧ 1 ≤ p.numCores ∧ 0 ≤ p.hopSize ∧
      (p.numCores : Int) * p.hopSize + 3 ≤ 2 ^ 32 - 1) ∧
  ∀ s : State, ¬ s.cfg.Legal → ∃ reason, configRefusal s.cfg = some reason ∧ step s = .refused (.illegalConfig reason)

/-- R240, R243, R46, R55: one edge with `rst = 1` takes a machine with any register values to the reset values, and leaves the
configuration (R245). -/
def Obligations.ResetEdgeGivesTheResetValues : Prop :=
  ∀ s : State, s.Shaped → (inputsOf s).rst = true →
    ∃ t, step s = .next t ∧ t.cfg = s.cfg ∧ t.sched = { activeStagger := false, staggerCounter := 0#32 } ∧
      t.cores.length = s.cfg.numCores ∧
      (∀ c, c < s.cfg.numCores →
        dmaAt t c = some
          { baseAddr := 0, numSamples := 0#32, sampleCounter := 0#32, currentAddr := 0, memAddr := 0,
            readWait := false, readReq := false, active := false, busy := false } ∧
        (∃ f, fftAt t c = some f ∧ f.internalCnt = 0#32 ∧ f.samplesInCnt = 0 ∧ f.outCntReg = 0 ∧
          f.v = List.replicate (latency s.cfg.n) false ∧ f.stages.length = numStages s.cfg.n) ∧
        (∀ i, i < numStages s.cfg.n → stageAt t c i = some
          { cnt := initOffset s.cfg.n i
            bufIn := List.replicate (delayLen s.cfg.n i) Sample.zero
            bufOut := List.replicate (delayLen s.cfg.n i) Sample.zero
            out := Sample.zero }) ∧
        t.rdata[c]? = some 0#64) ∧
      ∀ a, memRead t.mem a = 0#64

/-- The invariant holds right after a reset, in every legal configuration and with any inputs to come. The
configuration of `State.reset` is the model's (DESIGN CHOICE, notes/assumptions/2.md). -/
def Obligations.ResetStateMeetsTheInvariant : Prop :=
  State.reset.Inv ∧ ∀ (p : Params) (trace : List Inputs), p.Legal → (State.resetOf p trace).Inv

/-- R23, R28, R29, R41, R42: every step keeps the invariant, from every state that meets it. -/
def Obligations.StepKeepsTheInvariant : Prop :=
  ∀ s t : State, s.Inv → step s = .next t → t.Inv

/-- R222, R82: from a state that meets the invariant the machine runs on for any number of cycles, whatever its inputs: no step
faults and none refuses. -/
def Obligations.SoundMachineNeverStops : Prop :=
  ∀ (k : Nat) (s : State), s.Inv → ∃ t, StateAt s k t ∧ t.Inv

/-- R50, R52 to R55: what an edge does to the memory array and the read ports. -/
def Obligations.MemoryStepsAsItsInterfaceSays : Prop :=
  ∀ s t : State, s.Inv → step s = .next t →
    ((inputsOf s).rst = true → (∀ a, memRead t.mem a = 0#64) ∧ ∀ c, c < s.cfg.numCores → t.rdata[c]? = some 0#64) ∧
    ((inputsOf s).rst = false →
      (∀ (c : Nat) (d : DmaRegs), dmaAt s c = some d → t.rdata[c]? = some (memRead s.mem d.memAddr)) ∧
      ((inputsOf s).wEn = false → t.mem = s.mem) ∧
      ((inputsOf s).wEn = true → (inputsOf s).wAddr < 2 ^ s.cfg.aw →
        ∀ a, memRead t.mem a = if a = (inputsOf s).wAddr then (inputsOf s).wData else memRead s.mem a))

/-- From R205, for one edge: what core `c` does at an edge depends only on its own registers, its read port, the memory, the
scheduler and the inputs. -/
def Obligations.CoresAreIndependent : Prop :=
  ∀ (s s' t t' : State) (c : Nat), s.Inv → s'.Inv → step s = .next t → step s' = .next t' →
    s'.cfg = s.cfg → s'.sched = s.sched → inputsOf s' = inputsOf s → s'.cycle = s.cycle →
    s'.cores[c]? = s.cores[c]? → s'.rdata[c]? = s.rdata[c]? → (∀ a, memRead s'.mem a = memRead s.mem a) →
    t'.cores[c]? = t.cores[c]? ∧ t'.rdata[c]? = t.rdata[c]?

/-- R174, R178, R179: while a DMA is busy, its `start` and its parameter inputs change nothing: whatever the scheduler and the inputs
are, the DMA has the same registers after the edge. -/
def Obligations.BusyDmaIgnoresStart : Prop :=
  ∀ (s s' t t' : State) (c : Nat) (d : DmaRegs), s'.cfg = s.cfg →
    dmaAt s c = some d → dmaAt s' c = some d → d.busy = true →
    (inputsOf s).rst = false → (inputsOf s').rst = false →
    step s = .next t → step s' = .next t' → dmaAt t' c = dmaAt t c

/-- R204: while Staggering, the global `start` changes nothing and is not remembered; in Idle it is a new trigger. -/
def Obligations.StaggeringSchedulerIgnoresStart : Prop :=
  (∀ s s' t t' : State, s'.cfg = s.cfg → s'.sched = s.sched → s.sched.activeStagger = true →
    (inputsOf s').rst = (inputsOf s).rst → step s = .next t → step s' = .next t' → t'.sched = t.sched) ∧
  ∀ s t : State, s.cfg.wiring = .interleaved → s.sched.activeStagger = false → (inputsOf s).rst = false →
    (inputsOf s).start = true → step s = .next t → t.sched = { activeStagger := true, staggerCounter := 0#32 }

/-- R203, R204, R264: after a global `start` in Idle, in cycle `g`, the scheduler is Staggering in the cycles `g+1` to
`g + NUM_CORES*HOP_SIZE + 4`, whatever `start` does meanwhile, Idle in the next, and core `c` has its one pulse in cycle
`g + 1 + c*HOP_SIZE`. -/
def Obligations.StaggerLawHolds : Prop :=
  ∀ (s : State) (k : Nat), s.Inv → s.cfg.wiring = .interleaved → s.sched.activeStagger = false →
    (inputsOf s).start = true →
    let last := s.cfg.numCores * s.cfg.hopSize.toNat + 4
    NoResetFor s (last + 1) → 1 ≤ k → k ≤ last + 1 →
    ∃ t, StateAt s k t ∧
      (k ≤ last → t.sched.activeStagger = true ∧ t.sched.staggerCounter.toNat = k - 1) ∧
      (k = last + 1 → t.sched.activeStagger = false ∧ t.sched.staggerCounter.toNat = 0) ∧
      ∀ c, c < s.cfg.numCores → dmaStart t c = decide (k = 1 + c * s.cfg.hopSize.toNat)

/-- R176, R175, R177, R263: the registers of a DMA in cycle `s + k` of a transfer of `n` samples (0 included) accepted at edge `s`,
and the samples it delivers. -/
def Obligations.DmaTimingLawHolds : Prop :=
  ∀ (s : State) (c : Nat) (d : DmaRegs), s.Inv → dmaAt s c = some d → d.busy = false → dmaStart s c = true →
    let n := (numSamplesIn s c).toNat
    let base := baseAddrIn s c
    NoResetFor s (n + 3) →
    (∀ k, 1 ≤ k → k ≤ n + 3 → ∃ t d', StateAt s k t ∧ dmaAt t c = some d' ∧
      d'.busy = decide (k ≤ n + 2) ∧ d'.active = decide (k ≤ n + 1) ∧
      d'.readWait = decide (2 ≤ k ∧ k ≤ n + 1) ∧ d'.readReq = decide (3 ≤ k ∧ k ≤ n + 2) ∧
      d'.sampleCounter.toNat = min (k - 1) n ∧
      d'.currentAddr = (base + min (k - 1) n) % 2 ^ s.cfg.aw ∧
      d'.memAddr = if k = 1 ∨ n = 0 then d.memAddr else (base + (min (k - 1) n - 1)) % 2 ^ s.cfg.aw) ∧
    ∀ j, j < n → ∃ t t', StateAt s (j + 2) t ∧ StateAt s (j + 3) t' ∧ fftValid t' c = true ∧
      fftData t' c = unpack (memRead t.mem ((base + j) % 2 ^ s.cfg.aw))

/-- R265: from a quiescent state, with every input 0, every register of the core keeps its value at the edge, the memory too, and
each read port loads the word at its DMA's `mem_addr`. -/
def Obligations.QuiescentMachineStaysAsItIs : Prop :=
  ∀ s : State, s.Inv → s.Quiescent → (inputsOf s).rst = false → (inputsOf s).start = false →
    (inputsOf s).inValid = false → (inputsOf s).wEn = false →
    ∃ t, step s = .next t ∧ t.cfg = s.cfg ∧ t.sched = s.sched ∧ t.cores = s.cores ∧ t.mem = s.mem ∧
      ∀ (c : Nat) (d : DmaRegs), dmaAt s c = some d → t.rdata[c]? = some (memRead s.mem d.memAddr)

/-- R145, R146, R147, R148, R170, R171, R172, R173, R75: the outputs of a core in a cycle. -/
def Obligations.OutputsOfACore : Prop :=
  ∀ (s : State) (c : Nat) (d : DmaRegs) (f : FftRegs) (last : StageRegs), dmaAt s c = some d → fftAt s c = some f →
    stageAt s c (numStages s.cfg.n - 1) = some last →
    let outValid := f.v.getD (latency s.cfg.n - 1) false
    outputsOf s c =
      { status := inValidOf s c || decide (∃ b ∈ f.v, b = true)
        inIndex := if inValidOf s c then BitVec.ofNat 32 f.samplesInCnt else BitVec.ofInt 32 (-1)
        outValid := outValid
        outIndex := if outValid then BitVec.ofNat 32 f.outCntReg else BitVec.ofInt 32 (-1)
        outData := if outValid then last.out else Sample.zero
        busy := d.busy
        memAddr := d.memAddr
        fftValid := d.readReq
        fftData := if d.readReq then unpack (s.rdata.getD c 0#64) else Sample.zero }

/-- R135: at every edge, what an FFT's own operation does to stage `i` is what the operation of the stage's own select word does. -/
def Obligations.StageOperationsAgreeWithTheirFft : Prop :=
  ∀ (s t u : State) (c i : Nat) (r : StageRegs), stageAt s c i = some r →
    runUnit s (.fft c) = .next t → runUnit s (.stage c i) = .next u → stageAt t c i = stageAt u c i

/-- No operation of any unit, and so no control register, depends on the value of a sample or a memory word: two machines that differ
in those alone differ in those alone after an edge (R11 with R77 to R81, whose signals no sample enters). -/
def Obligations.ControlIgnoresSampleValues : Prop :=
  ∀ s s' t t' : State, s.Inv → s'.Inv → forgetSamples s = forgetSamples s' → step s = .next t → step s' = .next t' →
    forgetSamples t = forgetSamples t'

/-! ### Laws of the pipeline -/

/-- R7, R8, R153: the closed form of the latency, and the alignment of each stage's offset with the latency of the stages before it. -/
def Obligations.DerivedConstantsAlign : Prop :=
  ∀ p : Params, p.Legal →
    latency p.n = (p.n - 1) + numStages p.n ∧
    ∀ i, i < numStages p.n → initOffset p.n i < stageSize p.n i ∧
      (initOffset p.n i + cumLatency p.n i) % stageSize p.n i = 0

/-- R120: the delay law of a stage. With `cnt = 0` before edge 0 and the inputs `x 0, x 1, ...`, the output register holds after edge
`p + D_i` the sum of the pair for `p < D_i`, and the twiddled difference of the pair for `D_i ≤ p < N_i`; the inputs from `x N_i` on do
not enter. -/
def Obligations.StageDelayLawHolds : Prop :=
  ∀ (q : Params) (i p : Nat) (x : Nat → Sample) (d : Nat → Draw) (r : StageRegs), q.Legal → i < numStages q.n →
    StageOk q.n i r → r.cnt = 0 → p < stageSize q.n i →
    let half := delayLen q.n i
    (stageRun q.n i x d r (p + half + 1)).out =
      if p < half then sadd (d (p + half)) (x p) (x (p + half))
      else smul (d p) (ssub (d p) (x (p - half)) (x p)) (Config.twiddle (p - half) (stageSize q.n i))

/-- R149 with R143, R146, R147: if a block's samples are presented in the cycles `a` to `a+N-1`, the first in an FFT.SYNC, then up to
cycle `a+L+N-1` `out_valid` is 1 from cycle `a+L` on, with `out_index = p` in cycle `a+L+p`, and 0 in the cycles after the sync and
before `a+L`. -/
def Obligations.LatencyLawHolds : Prop :=
  ∀ (s : State) (c k : Nat), s.Inv → c < s.cfg.numCores → syncOf s c = true →
    (∀ j t, j < s.cfg.n → StateAt s j t → inValidOf t c = true) →
    let l := latency s.cfg.n
    NoResetFor s (l + s.cfg.n) → 1 ≤ k → k < l + s.cfg.n →
    ∃ t, StateAt s k t ∧ outValidOut t c = decide (l ≤ k) ∧ (l ≤ k → outIndexOut t c = BitVec.ofNat 32 (k - l))

/-! ### Sample arithmetic (40_sample.md) -/

/-- R96, R72, R73: unpacking is exact and unsigned: each component is finite and not negative (nor -0.0), and its value, counted in
units of 2^-1074, is that of the half of the word. The exactness is an inference the spec marks as derived, and the binary64
fields are from general knowledge (PRESUMED, notes/assumptions/14.md). -/
def Obligations.UnpackIsExactAndUnsigned : Prop :=
  ∀ w : U64,
    (fIsFinite (unpack w).re = true ∧ fSign (unpack w).re = false ∧ fVal (unpack w).re = (w.toNat / 2 ^ 32 : Nat) * 2 ^ 1074) ∧
    (fIsFinite (unpack w).im = true ∧ fSign (unpack w).im = false ∧ fVal (unpack w).im = (w.toNat % 2 ^ 32 : Nat) * 2 ^ 1074)

/-- R92: `sadd(x, ZERO)` is `x` except that a component -0.0 of `x` becomes +0.0, for every sample of finite components. -/
def Obligations.AddingZeroKeepsASample : Prop :=
  ∀ (d : Draw) (x : Sample), fIsFinite x.re = true → fIsFinite x.im = true →
    sadd d x Sample.zero =
      ⟨if x.re = 0x8000000000000000#64 then 0#64 else x.re, if x.im = 0x8000000000000000#64 then 0#64 else x.im⟩

/-- R93: `ssub(x, x)` is `(+0.0, +0.0)` for every finite `x`. -/
def Obligations.SubtractingItselfGivesZero : Prop :=
  ∀ (d : Draw) (x : Sample), fIsFinite x.re = true → fIsFinite x.im = true → ssub d x x = Sample.zero

/-- R90: the rounding that every operation ends in is to nearest, ties to even: the value `m / 2^s` (in units of 2^-1074), where it
rounds to a finite value, is no closer to any binary64 value than to the one it rounds to, and where another is as close, the
significand of the one it rounds to is even. Overflow to infinity is left out.
Binary64 itself is from general knowledge (PRESUMED, notes/assumptions/14.md). -/
def Obligations.RoundingIsToNearestEven : Prop :=
  ∀ (m s : Nat) (y : F64), fIsFinite y = true → roundBits m s < infBits →
    let z := ofSignBits false (roundBits m s)
    let dist (v : F64) : Nat := ((m : Int) - (fMag v : Int) * 2 ^ s).natAbs
    dist z ≤ dist y ∧ (dist z = dist y → fMag y ≠ fMag z → fFrac z % 2 = 0)

/-- R90, R91: the sum and the product of finite values, where they are finite, are no further from the exact result than any other
finite value is (binary64 itself: PRESUMED, notes/assumptions/14.md). Values are counted in units of 2^-1074, so the exact
product is in units of 2^-2148. `fsqrt` and infinite results are left out. -/
def Obligations.SumsAndProductsAreNearest : Prop :=
  ∀ q a b y : F64, fIsFinite a = true → fIsFinite b = true → fIsFinite y = true →
    (fIsFinite (fadd q a b) = true →
      (fVal (fadd q a b) - (fVal a + fVal b)).natAbs ≤ (fVal y - (fVal a + fVal b)).natAbs) ∧
    (fIsFinite (fmul q a b) = true →
      (fVal (fmul q a b) * 2 ^ 1074 - fVal a * fVal b).natAbs ≤ (fVal y * 2 ^ 1074 - fVal a * fVal b).natAbs)

/-- R100: a drawn NaN is a NaN, and every NaN can be drawn (notes/assumptions/4.md). -/
def Obligations.DrawnNaNsAreTheNaNs : Prop :=
  (∀ b : BitVec 53, fIsNaN (nanOf b) = true) ∧ ∀ x : F64, fIsNaN x = true → ∃ b : BitVec 53, nanOf b = x
end

