-- ==== Sys2Proof/Laws/Decode.lean ====
section
/-! SUPPORT. What each unit's select word decodes to, in terms of the control bits it is made of (30_encoding.md R77 to R82). -/

namespace Sys2Proof.Machine

/-- Every Stage select word matches a row. -/
theorem decode_stageSelect (c i : Nat) (rst enable sync ph2 : Bool) :
    decode (.stage c i) ((stageSelect rst enable sync ph2).setWidth 8) =
      .ok (if rst then .stgReset c i
        else if enable then
          (if sync then (if ph2 then .stgSyncP2 c i else .stgSyncP1 c i) else if ph2 then .stgP2 c i else .stgP1 c i)
        else .stgHold c i) := by
  cases rst <;> cases enable <;> cases sync <;> cases ph2 <;> rfl

/-- The FFT select words that `enable` and `stage_sync` can make (42_fft.md R132, R133). -/
theorem decode_fftSelect (c : Nat) (rst inValid inflight atZero : Bool) :
    decode (.fft c) ((fftSelect rst (inValid || inflight) inValid (atZero && inValid && !inflight)).setWidth 8) =
      .ok (if rst then .fftReset c
        else if inValid then (if atZero && !inflight then .fftSync c else .fftIngest c)
        else if inflight then .fftFlush c else .fftIdle c) := by
  cases rst <;> cases inValid <;> cases inflight <;> cases atZero <;> rfl

/-- The DMA select words of a DMA whose `active` implies `busy` (10_state.md R41). -/
theorem decode_dmaSelect (c : Nat) (rst busy start active more : Bool) (h : active = true → busy = true) :
    decode (.dma c) ((dmaSelect rst busy start active (active && more)).setWidth 8) =
      .ok (if rst then .dmaReset c
        else if busy then (if active then (if more then .dmaIssue c else .dmaLoopend c) else .dmaDone c)
        else if start then .dmaAccept c else .dmaIdle c) := by
  cases rst <;> cases busy <;> cases start <;> cases active <;> cases more <;> first | rfl | simp at h

/-- The scheduler select words of a scheduler whose `exceed` is 0 in Idle (44_interleaved.md R195). -/
theorem decode_schedSelect (rst act start exceed : Bool) (h : act = false → exceed = false) :
    decode .sched ((schedSelect rst act start exceed).setWidth 8) =
      .ok (if rst then .schReset
        else if act then (if exceed then .schExit else .schCount)
        else if start then .schTrigger else .schIdle) := by
  cases rst <;> cases act <;> cases start <;> cases exceed <;> first | rfl | simp at h

end Sys2Proof.Machine
end

