-- ==== Sys2Proof/Laws/Derived.lean ====
section
/-! SUPPORT. The derived constants of a legal configuration (00_scope.md R7), and what a legal configuration is. -/

namespace Sys2Proof.Machine

/-- What `configRefusal p = none` gives. -/
theorem legal_facts {p : Params} (h : p.Legal) :
    p.n = 2 ^ numStages p.n ∧ 2 ≤ p.n ∧ p.n ≤ 2 ^ 31 ∧ p.aw ≠ 0 ∧ p.dw = 64 ∧ p.numCores ≠ 0 ∧ 0 ≤ p.hopSize ∧
      p.numCores * hop p + 3 ≤ 2 ^ 32 - 1 := by
  unfold Params.Legal configRefusal at h
  repeat' split at h
  all_goals try cases h
  refine ⟨?_, ?_, ?_, ?_, ?_, ?_, ?_, ?_⟩ <;> first | assumption | omega | (simp only [numStages]; omega)

/-- The exit bound and the value after it fit the scheduler's counter. -/
theorem exitBound_lt {p : Params} (h : p.Legal) : exitBound p + 1 < 2 ^ 32 := by
  have := (legal_facts h).2.2.2.2.2.2.2
  unfold exitBound
  omega

theorem numStages_pos {p : Params} (h : p.Legal) : 0 < numStages p.n := by
  obtain ⟨h1, h2, -⟩ := legal_facts h
  rcases Nat.eq_zero_or_pos (numStages p.n) with h0 | h0
  · rw [h0] at h1; omega
  · exact h0

/-- `N_i = 2^(K-i)`. -/
theorem stageSize_pow {n i k : Nat} (hn : n = 2 ^ k) (hi : i ≤ k) : stageSize n i = 2 ^ (k - i) := by
  subst hn
  exact Nat.pow_div hi (by norm_num)

/-- `N_i = 2 * D_i` with `D_i ≥ 1` for every stage of a legal configuration. -/
theorem stageSize_eq_two_mul {n i : Nat} (hn : n = 2 ^ numStages n) (hi : i < numStages n) :
    stageSize n i = 2 * delayLen n i ∧ 0 < delayLen n i := by
  have hs := stageSize_pow hn hi.le
  obtain ⟨j, hj⟩ : ∃ j, numStages n - i = j + 1 := ⟨numStages n - i - 1, by omega⟩
  rw [hj, pow_succ] at hs
  have hp : 0 < 2 ^ j := Nat.two_pow_pos j
  unfold delayLen
  omega

theorem stageSize_pos {n i : Nat} (hn : n = 2 ^ numStages n) (hi : i < numStages n) : 0 < stageSize n i := by
  have := stageSize_eq_two_mul hn hi
  omega

theorem initOffset_lt {n i : Nat} (hn : n = 2 ^ numStages n) (hi : i < numStages n) : initOffset n i < stageSize n i :=
  Nat.mod_lt _ (stageSize_pos hn hi)

theorem wrapAddr_lt (p : Params) (a : Nat) : wrapAddr p a < 2 ^ p.aw := Nat.mod_lt _ (Nat.two_pow_pos _)

end Sys2Proof.Machine
end

