-- ==== Sys2Proof/Laws/Fft.lean ====
section
/-! SUPPORT. The shift of the validity register (42_fft.md R141) and the same Stage operation on every stage, element by element. -/

namespace Sys2Proof.Machine

@[simp] theorem shiftIn_length (b : Bool) (v : List Bool) : (shiftIn b v).length = v.length := by
  simp [shiftIn]

/-- The head is the inserted bit. -/
theorem shiftIn_getD_zero (b : Bool) {v : List Bool} (h : 0 < v.length) : (shiftIn b v).getD 0 false = b := by
  cases v with
  | nil => simp at h
  | cons a v => simp [shiftIn]

/-- Every other entry is the one before it. -/
theorem shiftIn_getD_succ (b : Bool) {v : List Bool} {j : Nat} (h : j + 1 < v.length) :
    (shiftIn b v).getD (j + 1) false = v.getD j false := by
  have h1 : v[j]? = some v[j] := by simp
  have h2 : j + 1 < (shiftIn b v).length := by simpa using h
  simp [List.getD, shiftIn, h, h1]

/-- Some bit is set exactly where a sample is in flight (42_fft.md R131). -/
theorem fftInflight_iff (f : FftRegs) : fftInflight f = true ↔ ∃ b ∈ f.v, b = true := by
  simp [fftInflight]

@[simp] theorem allStages_length (c : Nat) (s : State) (op : StageEnv → StageRegs → StageRegs) (l : List StageRegs) :
    (allStages c s op l).length = l.length := by
  simp [allStages]

theorem allStages_getElem? (c : Nat) (s : State) (op : StageEnv → StageRegs → StageRegs) (l : List StageRegs) (i : Nat) :
    (allStages c s op l)[i]? = (l[i]?).map (op (stageEnv s c i)) := by
  simp [allStages, List.getElem?_mapIdx]

end Sys2Proof.Machine
end

