-- ==== Sys2Proof/Laws/Float.lean ====
section
/-! SUPPORT. The fields of a binary64 pattern, the values the operations build from fields, and what one rounding does
(40_sample.md R90). -/

namespace Sys2Proof.Machine

/-! ### Fields -/

theorem fSign_eq (x : F64) : fSign x = decide (2 ^ 63 ≤ x.toNat) := by
  simp [fSign, BitVec.msb_eq_decide]

/-- A pattern is its three fields. -/
theorem toNat_eq_fields (x : F64) : x.toNat = (if fSign x then 2 ^ 63 else 0) + fExp x * 2 ^ 52 + fFrac x := by
  have := x.isLt
  rw [fSign_eq]
  unfold fExp fFrac
  split_ifs with h <;> simp at h <;> omega

theorem fExp_lt (x : F64) : fExp x < 2048 := Nat.mod_lt _ (by norm_num)

theorem fFrac_lt (x : F64) : fFrac x < 2 ^ 52 := Nat.mod_lt _ (by norm_num)

theorem toNat_ofSignBits (sign : Bool) {bits : Nat} (h : bits < 2 ^ 63) :
    (ofSignBits sign bits).toNat = (if sign then 2 ^ 63 else 0) + bits := by
  unfold ofSignBits
  cases sign
  · simp; omega
  · simp; omega

theorem fSign_ofSignBits (sign : Bool) {bits : Nat} (h : bits < 2 ^ 63) : fSign (ofSignBits sign bits) = sign := by
  rw [fSign_eq, toNat_ofSignBits sign h]
  cases sign
  · simp; omega
  · simp

theorem fExp_ofSignBits (sign : Bool) {bits : Nat} (h : bits < 2 ^ 63) : fExp (ofSignBits sign bits) = bits / 2 ^ 52 := by
  simp only [fExp, toNat_ofSignBits sign h]
  cases sign
  · simp; omega
  · simp; omega

theorem fFrac_ofSignBits (sign : Bool) {bits : Nat} (h : bits < 2 ^ 63) : fFrac (ofSignBits sign bits) = bits % 2 ^ 52 := by
  simp only [fFrac, toNat_ofSignBits sign h]
  cases sign
  · simp
  · simp; omega

/-- A pattern is rebuilt from its sign and its magnitude bits. -/
theorem ofSignBits_fields (x : F64) : ofSignBits (fSign x) (fExp x * 2 ^ 52 + fFrac x) = x := by
  have h1 := toNat_eq_fields x
  have h2 := fExp_lt x
  have h3 := fFrac_lt x
  apply BitVec.eq_of_toNat_eq
  rw [toNat_ofSignBits _ (by omega)]
  omega

theorem fneg_fields (x : F64) : fSign (fneg x) = !fSign x ∧ fExp (fneg x) = fExp x ∧ fFrac (fneg x) = fFrac x := by
  have h : (fneg x).toNat % 2 ^ 63 = x.toNat % 2 ^ 63 := by
    rw [fneg, BitVec.toNat_xor, Nat.xor_mod_two_pow, BitVec.toNat_ofNat, Nat.mod_mod_of_dvd _ (by norm_num), Nat.mod_self,
      Nat.xor_zero]
  refine ⟨?_, ?_, ?_⟩
  · have : (BitVec.ofNat 64 (2 ^ 63)).msb = true := by decide
    simp only [fSign, fneg, BitVec.msb_xor, this, Bool.bne_true]
  · unfold fExp; omega
  · unfold fFrac; omega

/-! ### Values -/

theorem finite_not_special {x : F64} (h : fIsFinite x = true) : fIsNaN x = false ∧ fIsInf x = false := by
  simp only [fIsFinite, bne_iff_ne] at h
  simp [fIsNaN, fIsInf, h]

theorem natAbs_fVal (x : F64) : (fVal x).natAbs = fMag x := by
  unfold fVal
  split_ifs <;> simp

theorem fields_of_fMag_zero {x : F64} (h : fMag x = 0) : fExp x = 0 ∧ fFrac x = 0 := by
  unfold fMag at h
  split_ifs at h with h0
  · exact ⟨h0, h⟩
  · simp at h

/-! ### One rounding -/

/-- What `roundShift` does: the quotient, or the one above it. -/
theorem roundShift_cases (m t : Nat) : ∃ q r, m = q * 2 ^ t + r ∧ r < 2 ^ t ∧
    (roundShift m t = q ∧ 2 * r ≤ 2 ^ t ∧ (2 * r = 2 ^ t → q % 2 = 0) ∨
      roundShift m t = q + 1 ∧ 2 ^ t ≤ 2 * r ∧ (2 * r = 2 ^ t → q % 2 = 1)) := by
  have hp := Nat.two_pow_pos t
  refine ⟨m / 2 ^ t, m % 2 ^ t, by rw [mul_comm]; exact (Nat.div_add_mod _ _).symm, Nat.mod_lt _ hp, ?_⟩
  unfold roundShift
  simp only
  split_ifs with h
  · right; omega
  · left; omega

/-- Rounding an exact multiple loses nothing. -/
theorem roundShift_mul (m t : Nat) : roundShift (m * 2 ^ t) t = m := by
  unfold roundShift
  have : m * 2 ^ t % 2 ^ t = 0 := Nat.mul_mod_left _ _
  simp only [this, Nat.mul_zero, Nat.mul_div_cancel _ (Nat.two_pow_pos t)]
  rw [if_neg]
  have := Nat.two_pow_pos t
  omega

theorem roundBits_le (m s : Nat) : roundBits m s ≤ infBits := Nat.min_le_right _ _

/-- `a * 2^e` for a 53-bit `a` has its leading bit at `52 + e`. -/
theorem log2_mul_two_pow {a e : Nat} (h1 : 2 ^ 52 ≤ a) (h2 : a < 2 ^ 53) : (a * 2 ^ e).log2 = 52 + e := by
  have hp := Nat.two_pow_pos e
  rw [Nat.log2_eq_iff (by positivity)]
  constructor
  · rw [pow_add]; exact Nat.mul_le_mul_right _ h1
  · rw [show 52 + e + 1 = 53 + e by ring, pow_add]; exact Nat.mul_lt_mul_of_pos_right h2 hp

/-- A value that is representable rounds to itself. -/
theorem roundBits_fMag {x : F64} (h : fIsFinite x = true) : roundBits (fMag x) 0 = fExp x * 2 ^ 52 + fFrac x := by
  have h2 := fExp_lt x
  have h3 := fFrac_lt x
  simp only [fIsFinite, bne_iff_ne] at h
  unfold roundBits
  simp only [Nat.sub_zero, Nat.zero_add]
  unfold fMag
  split_ifs with h0
  · have : (fFrac x).log2 - 52 = 0 := by
      by_cases hz : fFrac x = 0
      · simp [hz]
      · have := (Nat.log2_lt hz (k := 52)).mpr h3
        omega
    have h4 := roundShift_mul (fFrac x) 0
    simp only [pow_zero, Nat.mul_one] at h4
    rw [this, h0, h4]
    unfold infBits
    omega
  · rw [log2_mul_two_pow (by omega) (by omega), show 52 + (fExp x - 1) - 52 = fExp x - 1 by omega, roundShift_mul]
    unfold infBits
    omega

end Sys2Proof.Machine
end

