-- ==== Sys2Proof/Laws/Memory.lean ====
section
/-! SUPPORT. Reading after a write, and that every memory operation keeps the canonical form. -/

namespace Sys2Proof.Machine

theorem memWfFrom_mono {lo lo' : Nat} (h : lo' ≤ lo) {m : Memory} (hm : memWfFrom lo m = true) : memWfFrom lo' m = true := by
  cases m with
  | nil => rfl
  | cons x m =>
    obtain ⟨b, w⟩ := x
    simp only [memWfFrom, Bool.and_eq_true, decide_eq_true_eq] at hm ⊢
    exact ⟨⟨by omega, hm.1.2⟩, hm.2⟩

/-- An address below every listed one reads as 0. -/
theorem memRead_below {lo a : Nat} {m : Memory} (hm : memWfFrom lo m = true) (h : a < lo) : memRead m a = 0#64 := by
  induction m generalizing lo with
  | nil => rfl
  | cons x m ih =>
    obtain ⟨b, w⟩ := x
    simp only [memWfFrom, Bool.and_eq_true, decide_eq_true_eq] at hm
    rw [memRead, if_neg (by omega)]
    exact ih hm.2 (by omega)

theorem memInsert_wfFrom {lo a : Nat} {x : U64} {m : Memory} (hm : memWfFrom lo m = true) (h : lo ≤ a) (hx : x ≠ 0#64) :
    memWfFrom lo (memInsert m a x) = true := by
  induction m generalizing lo with
  | nil => simp [memInsert, memWfFrom, h, hx]
  | cons y m ih =>
    obtain ⟨b, w⟩ := y
    simp only [memWfFrom, Bool.and_eq_true, decide_eq_true_eq, bne_iff_ne] at hm
    unfold memInsert
    split
    · next hab => simp [memWfFrom, h, hx, hm.1.2, hm.2]; omega
    · split
      · next hab => subst hab; simp [memWfFrom, h, hx, hm.2]
      · next h1 h2 => simp [memWfFrom, hm.1.1, hm.1.2, ih hm.2 (by omega : b + 1 ≤ a)]

theorem memErase_wfFrom {lo a : Nat} {m : Memory} (hm : memWfFrom lo m = true) : memWfFrom lo (memErase m a) = true := by
  induction m generalizing lo with
  | nil => rfl
  | cons y m ih =>
    obtain ⟨b, w⟩ := y
    simp only [memWfFrom, Bool.and_eq_true, decide_eq_true_eq, bne_iff_ne] at hm
    unfold memErase
    split
    · exact memWfFrom_mono (by omega) hm.2
    · simp [memWfFrom, hm.1.1, hm.1.2, ih hm.2]

/-- A write keeps the canonical form. -/
theorem memWrite_wf {m : Memory} (hm : Memory.wf m = true) (a : Nat) (x : U64) : Memory.wf (memWrite m a x) = true := by
  unfold memWrite
  split
  · exact memErase_wfFrom hm
  · next hx => exact memInsert_wfFrom hm (Nat.zero_le _) hx

/-- The memory after a reset has the canonical form. -/
theorem memResetCells_wf : Memory.wf memResetCells = true := rfl

theorem memRead_memInsert (m : Memory) (a : Nat) (x : U64) (b : Nat) :
    memRead (memInsert m a x) b = if b = a then x else memRead m b := by
  induction m with
  | nil => simp [memInsert, memRead]
  | cons y m ih =>
    obtain ⟨e, w⟩ := y
    unfold memInsert
    split
    · simp [memRead]
    · split
      · next h => subst h; simp only [memRead]; split <;> rfl
      · next h1 h2 =>
        simp only [memRead, ih]
        split
        · next h => subst h; simp [Ne.symm h2]
        · rfl

theorem memRead_memErase {lo : Nat} {m : Memory} (hm : memWfFrom lo m = true) (a b : Nat) :
    memRead (memErase m a) b = if b = a then 0#64 else memRead m b := by
  induction m generalizing lo with
  | nil => simp [memErase, memRead]
  | cons y m ih =>
    obtain ⟨e, w⟩ := y
    simp only [memWfFrom, Bool.and_eq_true, decide_eq_true_eq] at hm
    unfold memErase
    split
    · next h =>
      subst h
      by_cases hb : b = a
      · subst hb; simp [memRead_below hm.2 (Nat.lt_succ_self _)]
      · simp [memRead, hb]
    · next h =>
      simp only [memRead, ih hm.2]
      split
      · next hb => subst hb; simp [Ne.symm h]
      · rfl

/-- A read after a write: the word written at its address, and the old word at every other. -/
theorem memRead_memWrite {m : Memory} (hm : Memory.wf m = true) (a : Nat) (x : U64) (b : Nat) :
    memRead (memWrite m a x) b = if b = a then x else memRead m b := by
  unfold memWrite
  split
  · next h => subst h; exact memRead_memErase hm a b
  · exact memRead_memInsert m a x b

theorem memRead_reset (a : Nat) : memRead memResetCells a = 0#64 := rfl

/-- A write lists no address but its own and those listed before. -/
theorem mem_memWrite {m : Memory} {a : Nat} {x : U64} {y : Nat × U64} (h : y ∈ memWrite m a x) : y ∈ m ∨ y.1 = a := by
  have ins : ∀ m : Memory, y ∈ memInsert m a x → y ∈ m ∨ y.1 = a := by
    intro m
    induction m with
    | nil => simp only [memInsert, List.mem_singleton]; rintro rfl; exact .inr rfl
    | cons z m ih =>
      obtain ⟨b, w⟩ := z
      unfold memInsert
      split
      · simp only [List.mem_cons]; rintro (rfl | h | h) <;> simp_all
      · split
        · simp only [List.mem_cons]; rintro (rfl | h) <;> simp_all
        · simp only [List.mem_cons]
          rintro (rfl | h)
          · exact .inl (.inl rfl)
          · exact (ih h).imp .inr id
  have era : ∀ m : Memory, y ∈ memErase m a → y ∈ m := by
    intro m
    induction m with
    | nil => simp [memErase]
    | cons z m ih =>
      obtain ⟨b, w⟩ := z
      unfold memErase
      split
      · exact List.mem_cons_of_mem _
      · simp only [List.mem_cons]; exact Or.imp id ih
  unfold memWrite at h
  split at h
  · exact .inl (era m h)
  · exact ins m h

/-- Two memories in canonical form that read alike are equal data. -/
theorem memory_ext {lo : Nat} {m m' : Memory} (hm : memWfFrom lo m = true) (hm' : memWfFrom lo m' = true)
    (h : ∀ a, memRead m a = memRead m' a) : m = m' := by
  induction m generalizing m' lo with
  | nil =>
    cases m' with
    | nil => rfl
    | cons y m' =>
      obtain ⟨b, w⟩ := y
      simp only [memWfFrom, Bool.and_eq_true, bne_iff_ne] at hm'
      exact absurd (by simpa [memRead] using (h b).symm) hm'.1.2
  | cons x m ih =>
    obtain ⟨a, v⟩ := x
    simp only [memWfFrom, Bool.and_eq_true, decide_eq_true_eq, bne_iff_ne] at hm
    cases m' with
    | nil => exact absurd (by simpa [memRead] using h a) hm.1.2
    | cons y m' =>
      obtain ⟨b, w⟩ := y
      simp only [memWfFrom, Bool.and_eq_true, decide_eq_true_eq, bne_iff_ne] at hm'
      have hab : a = b := by
        rcases lt_trichotomy a b with hlt | heq | hgt
        · have := h a
          rw [memRead, if_pos rfl, memRead, if_neg (by omega), memRead_below hm'.2 (by omega)] at this
          exact absurd this hm.1.2
        · exact heq
        · have := h b
          rw [memRead, if_neg (by omega), memRead_below hm.2 (by omega), memRead, if_pos rfl] at this
          exact absurd this.symm hm'.1.2
      subst hab
      have hvw : v = w := by simpa [memRead] using h a
      subst hvw
      have : m = m' := ih hm.2 hm'.2 (fun e => by
        by_cases he : e = a
        · subst he; rw [memRead_below hm.2 (by omega), memRead_below hm'.2 (by omega)]
        · simpa [memRead, he] using h e)
      rw [this]

end Sys2Proof.Machine
end

