-- ==== Sys2Proof/Laws/State.lean ====
section
/-! SUPPORT. What each register write changes and what it leaves, one lemma per field, so that no later proof unfolds a record update. -/

namespace Sys2Proof.Machine

/-! ### Fields that the register writes leave -/

@[simp] theorem setDma_cfg (s : State) (c : Nat) (d : DmaRegs) : (setDma s c d).cfg = s.cfg := rfl
@[simp] theorem setDma_sched (s : State) (c : Nat) (d : DmaRegs) : (setDma s c d).sched = s.sched := rfl
@[simp] theorem setDma_mem (s : State) (c : Nat) (d : DmaRegs) : (setDma s c d).mem = s.mem := rfl
@[simp] theorem setDma_rdata (s : State) (c : Nat) (d : DmaRegs) : (setDma s c d).rdata = s.rdata := rfl
@[simp] theorem setDma_trace (s : State) (c : Nat) (d : DmaRegs) : (setDma s c d).trace = s.trace := rfl
@[simp] theorem setDma_cycle (s : State) (c : Nat) (d : DmaRegs) : (setDma s c d).cycle = s.cycle := rfl

@[simp] theorem setFft_cfg (s : State) (c : Nat) (f : FftRegs) : (setFft s c f).cfg = s.cfg := rfl
@[simp] theorem setFft_sched (s : State) (c : Nat) (f : FftRegs) : (setFft s c f).sched = s.sched := rfl
@[simp] theorem setFft_mem (s : State) (c : Nat) (f : FftRegs) : (setFft s c f).mem = s.mem := rfl
@[simp] theorem setFft_rdata (s : State) (c : Nat) (f : FftRegs) : (setFft s c f).rdata = s.rdata := rfl
@[simp] theorem setFft_trace (s : State) (c : Nat) (f : FftRegs) : (setFft s c f).trace = s.trace := rfl
@[simp] theorem setFft_cycle (s : State) (c : Nat) (f : FftRegs) : (setFft s c f).cycle = s.cycle := rfl

@[simp] theorem setStage_cfg (s : State) (c i : Nat) (r : StageRegs) : (setStage s c i r).cfg = s.cfg := rfl
@[simp] theorem setStage_sched (s : State) (c i : Nat) (r : StageRegs) : (setStage s c i r).sched = s.sched := rfl
@[simp] theorem setStage_mem (s : State) (c i : Nat) (r : StageRegs) : (setStage s c i r).mem = s.mem := rfl
@[simp] theorem setStage_rdata (s : State) (c i : Nat) (r : StageRegs) : (setStage s c i r).rdata = s.rdata := rfl
@[simp] theorem setStage_trace (s : State) (c i : Nat) (r : StageRegs) : (setStage s c i r).trace = s.trace := rfl
@[simp] theorem setStage_cycle (s : State) (c i : Nat) (r : StageRegs) : (setStage s c i r).cycle = s.cycle := rfl

@[simp] theorem setSched_cfg (s : State) (r : SchedRegs) : (setSched s r).cfg = s.cfg := rfl
@[simp] theorem setSched_sched (s : State) (r : SchedRegs) : (setSched s r).sched = r := rfl
@[simp] theorem setSched_cores (s : State) (r : SchedRegs) : (setSched s r).cores = s.cores := rfl
@[simp] theorem setSched_mem (s : State) (r : SchedRegs) : (setSched s r).mem = s.mem := rfl
@[simp] theorem setSched_rdata (s : State) (r : SchedRegs) : (setSched s r).rdata = s.rdata := rfl
@[simp] theorem setSched_trace (s : State) (r : SchedRegs) : (setSched s r).trace = s.trace := rfl
@[simp] theorem setSched_cycle (s : State) (r : SchedRegs) : (setSched s r).cycle = s.cycle := rfl

/-! ### The cores after a register write -/

@[simp] theorem setDma_cores_length (s : State) (c : Nat) (d : DmaRegs) : (setDma s c d).cores.length = s.cores.length := by
  simp [setDma]

@[simp] theorem setFft_cores_length (s : State) (c : Nat) (f : FftRegs) : (setFft s c f).cores.length = s.cores.length := by
  simp [setFft]

@[simp] theorem setStage_cores_length (s : State) (c i : Nat) (r : StageRegs) :
    (setStage s c i r).cores.length = s.cores.length := by
  simp [setStage]

theorem setDma_cores_other (s : State) {c k : Nat} (d : DmaRegs) (h : k ≠ c) : (setDma s c d).cores[k]? = s.cores[k]? := by
  simp [setDma, h.symm]

theorem setFft_cores_other (s : State) {c k : Nat} (f : FftRegs) (h : k ≠ c) : (setFft s c f).cores[k]? = s.cores[k]? := by
  simp [setFft, h.symm]

theorem setStage_cores_other (s : State) {c k : Nat} (i : Nat) (r : StageRegs) (h : k ≠ c) :
    (setStage s c i r).cores[k]? = s.cores[k]? := by
  simp [setStage, h.symm]

/-! ### The units after a register write -/

@[simp] theorem dmaAt_setDma (s : State) (c : Nat) (d : DmaRegs) :
    dmaAt (setDma s c d) c = (dmaAt s c).map (fun _ => d) := by
  cases h : s.cores[c]? <;> simp [dmaAt, setDma, h]

@[simp] theorem fftAt_setDma (s : State) (c k : Nat) (d : DmaRegs) : fftAt (setDma s c d) k = fftAt s k := by
  by_cases e : c = k
  · subst e; cases h : s.cores[c]? <;> simp [fftAt, setDma, h]
  · simp [fftAt, setDma, e]

@[simp] theorem fftAt_setFft (s : State) (c : Nat) (f : FftRegs) :
    fftAt (setFft s c f) c = (fftAt s c).map (fun _ => f) := by
  cases h : s.cores[c]? <;> simp [fftAt, setFft, h]

@[simp] theorem dmaAt_setFft (s : State) (c k : Nat) (f : FftRegs) : dmaAt (setFft s c f) k = dmaAt s k := by
  by_cases e : c = k
  · subst e; cases h : s.cores[c]? <;> simp [dmaAt, setFft, h]
  · simp [dmaAt, setFft, e]

@[simp] theorem dmaAt_setStage (s : State) (c k i : Nat) (r : StageRegs) : dmaAt (setStage s c i r) k = dmaAt s k := by
  by_cases e : c = k
  · subst e; cases h : s.cores[c]? <;> simp [dmaAt, setStage, h]
  · simp [dmaAt, setStage, e]

theorem fftAt_setStage (s : State) (c i : Nat) (r : StageRegs) :
    fftAt (setStage s c i r) c = (fftAt s c).map (fun f => { f with stages := f.stages.set i r }) := by
  cases h : s.cores[c]? <;> simp [fftAt, setStage, h]

@[simp] theorem stageAt_setStage (s : State) (c i : Nat) (r : StageRegs) :
    stageAt (setStage s c i r) c i = (stageAt s c i).map (fun _ => r) := by
  cases h : fftAt s c with
  | none => simp [stageAt, fftAt_setStage, h]
  | some f => by_cases hi : i < f.stages.length <;> simp [stageAt, fftAt_setStage, h, hi]

theorem stageAt_setStage_other (s : State) {c i j : Nat} (r : StageRegs) (h : j ≠ i) :
    stageAt (setStage s c i r) c j = stageAt s c j := by
  cases hf : fftAt s c with
  | none => simp [stageAt, fftAt_setStage, hf]
  | some f => simp [stageAt, fftAt_setStage, hf, h.symm]

@[simp] theorem dmaAt_setSched (s : State) (r : SchedRegs) (c : Nat) : dmaAt (setSched s r) c = dmaAt s c := rfl
@[simp] theorem fftAt_setSched (s : State) (r : SchedRegs) (c : Nat) : fftAt (setSched s r) c = fftAt s c := rfl
@[simp] theorem stageAt_setSched (s : State) (r : SchedRegs) (c i : Nat) : stageAt (setSched s r) c i = stageAt s c i := rfl

/-! ### Reading a unit of a machine that has it -/

theorem dmaAt_eq_some {s : State} {c : Nat} {d : DmaRegs} :
    dmaAt s c = some d ↔ ∃ k, s.cores[c]? = some k ∧ k.dma = d := by
  simp [dmaAt]

theorem fftAt_eq_some {s : State} {c : Nat} {f : FftRegs} :
    fftAt s c = some f ↔ ∃ k, s.cores[c]? = some k ∧ k.fft = f := by
  simp [fftAt]

theorem stageAt_eq_some {s : State} {c i : Nat} {r : StageRegs} :
    stageAt s c i = some r ↔ ∃ f, fftAt s c = some f ∧ f.stages[i]? = some r := by
  cases h : fftAt s c <;> simp [stageAt, h]

theorem dmaAt_of_core {s : State} {c : Nat} {k : CoreRegs} (h : s.cores[c]? = some k) : dmaAt s c = some k.dma := by
  simp [dmaAt, h]

theorem fftAt_of_core {s : State} {c : Nat} {k : CoreRegs} (h : s.cores[c]? = some k) : fftAt s c = some k.fft := by
  simp [fftAt, h]

end Sys2Proof.Machine
end

