-- ==== Sys2Proof/Laws/Ops.lean ====
section
/-! SUPPORT. What the operations over one unit can answer: a next state in which that unit alone is written, or the fault that the
machine has no such unit. -/

namespace Sys2Proof.Machine

theorem onStage_some {c i : Nat} {s : State} {r : StageRegs} (h : stageAt s c i = some r)
    (op : StageEnv → StageRegs → StageRegs) : onStage c i s op = .next (setStage s c i (op (stageEnv s c i) r)) := by
  simp [onStage, h]

theorem onFft_some {c : Nat} {s : State} {f : FftRegs} (h : fftAt s c = some f) (op : FftRegs → FftRegs) :
    onFft c s op = .next (setFft s c (op f)) := by
  simp [onFft, h]

theorem onDma_some {c : Nat} {s : State} {d : DmaRegs} (h : dmaAt s c = some d) (op : DmaRegs → DmaRegs) :
    onDma c s op = .next (setDma s c (op d)) := by
  simp [onDma, h]

theorem onSched_eq (s : State) (op : SchedRegs → SchedRegs) : onSched s op = .next (setSched s (op s.sched)) := rfl

/-- If a Stage operation answers a next state, the stage exists and it alone is written. -/
theorem onStage_next {c i : Nat} {s t : State} {op : StageEnv → StageRegs → StageRegs} (h : onStage c i s op = .next t) :
    ∃ r, stageAt s c i = some r ∧ t = setStage s c i (op (stageEnv s c i) r) := by
  unfold onStage at h
  split at h
  · cases h
  · next r hr => cases h; exact ⟨r, hr, rfl⟩

/-- If an FFT operation answers a next state, the FFT exists and it alone is written. -/
theorem onFft_next {c : Nat} {s t : State} {op : FftRegs → FftRegs} (h : onFft c s op = .next t) :
    ∃ f, fftAt s c = some f ∧ t = setFft s c (op f) := by
  unfold onFft at h
  split at h
  · cases h
  · next f hf => cases h; exact ⟨f, hf, rfl⟩

/-- If a DMA operation answers a next state, the DMA exists and it alone is written. -/
theorem onDma_next {c : Nat} {s t : State} {op : DmaRegs → DmaRegs} (h : onDma c s op = .next t) :
    ∃ d, dmaAt s c = some d ∧ t = setDma s c (op d) := by
  unfold onDma at h
  split at h
  · cases h
  · next d hd => cases h; exact ⟨d, hd, rfl⟩

/-- If a scheduler operation answers a next state, the scheduler alone is written. -/
theorem onSched_next {s t : State} {op : SchedRegs → SchedRegs} (h : onSched s op = .next t) : t = setSched s (op s.sched) := by
  cases h; rfl

end Sys2Proof.Machine
end

