-- ==== Sys2Proof/Laws/PerInstr.lean ====
section
/-! SUPPORT. Per constructor of `Instr`: its row of the opcode table is read back by the decoder. -/

namespace Sys2Proof.Laws.TableRow

/-- The row of an operation is consistent (its match has no bit outside its mask), fits the select word of the unit, and its match
word decodes to the operation (30_encoding.md R76 to R81). -/
def Statement (i : Instr) : Prop :=
  matchOf i &&& maskOf i = matchOf i ∧ (matchOf i).toNat < 2 ^ selectWidth (unitOf i) ∧ decode (unitOf i) (matchOf i) = .ok i

theorem of_row {i : Instr} (u : UnitId) (mask pattern : BitVec 8) (hu : unitOf i = u) (hm : maskOf i = mask)
    (hp : matchOf i = pattern) (h1 : pattern &&& mask = pattern) (h2 : pattern.toNat < 2 ^ selectWidth u)
    (h3 : decode u pattern = .ok i) : Statement i := by
  subst hu hm hp
  exact ⟨h1, h2, h3⟩

theorem stgReset (core stage : Nat) : Statement (.stgReset core stage) :=
  of_row (.stage core stage) 0b1000 0b1000 rfl rfl rfl rfl (by simp [selectWidth]) rfl

theorem stgHold (core stage : Nat) : Statement (.stgHold core stage) :=
  of_row (.stage core stage) 0b1100 0b0000 rfl rfl rfl rfl (by simp [selectWidth]) rfl

theorem stgP1 (core stage : Nat) : Statement (.stgP1 core stage) :=
  of_row (.stage core stage) 0b1111 0b0100 rfl rfl rfl rfl (by simp [selectWidth]) rfl

theorem stgP2 (core stage : Nat) : Statement (.stgP2 core stage) :=
  of_row (.stage core stage) 0b1111 0b0101 rfl rfl rfl rfl (by simp [selectWidth]) rfl

theorem stgSyncP1 (core stage : Nat) : Statement (.stgSyncP1 core stage) :=
  of_row (.stage core stage) 0b1111 0b0110 rfl rfl rfl rfl (by simp [selectWidth]) rfl

theorem stgSyncP2 (core stage : Nat) : Statement (.stgSyncP2 core stage) :=
  of_row (.stage core stage) 0b1111 0b0111 rfl rfl rfl rfl (by simp [selectWidth]) rfl

theorem fftReset (core : Nat) : Statement (.fftReset core) :=
  of_row (.fft core) 0b1000 0b1000 rfl rfl rfl rfl (by simp [selectWidth]) rfl

theorem fftIdle (core : Nat) : Statement (.fftIdle core) :=
  of_row (.fft core) 0b1111 0b0000 rfl rfl rfl rfl (by simp [selectWidth]) rfl

theorem fftFlush (core : Nat) : Statement (.fftFlush core) :=
  of_row (.fft core) 0b1111 0b0100 rfl rfl rfl rfl (by simp [selectWidth]) rfl

theorem fftIngest (core : Nat) : Statement (.fftIngest core) :=
  of_row (.fft core) 0b1111 0b0110 rfl rfl rfl rfl (by simp [selectWidth]) rfl

theorem fftSync (core : Nat) : Statement (.fftSync core) :=
  of_row (.fft core) 0b1111 0b0111 rfl rfl rfl rfl (by simp [selectWidth]) rfl

theorem dmaReset (core : Nat) : Statement (.dmaReset core) :=
  of_row (.dma core) 0b10000 0b10000 rfl rfl rfl rfl (by simp [selectWidth]) rfl

theorem dmaIdle (core : Nat) : Statement (.dmaIdle core) :=
  of_row (.dma core) 0b11111 0b00000 rfl rfl rfl rfl (by simp [selectWidth]) rfl

theorem dmaAccept (core : Nat) : Statement (.dmaAccept core) :=
  of_row (.dma core) 0b11111 0b00100 rfl rfl rfl rfl (by simp [selectWidth]) rfl

theorem dmaIssue (core : Nat) : Statement (.dmaIssue core) :=
  of_row (.dma core) 0b11011 0b01011 rfl rfl rfl rfl (by simp [selectWidth]) rfl

theorem dmaLoopend (core : Nat) : Statement (.dmaLoopend core) :=
  of_row (.dma core) 0b11011 0b01010 rfl rfl rfl rfl (by simp [selectWidth]) rfl

theorem dmaDone (core : Nat) : Statement (.dmaDone core) :=
  of_row (.dma core) 0b11011 0b01000 rfl rfl rfl rfl (by simp [selectWidth]) rfl

theorem schReset : Statement .schReset :=
  of_row .sched 0b1000 0b1000 rfl rfl rfl rfl (by simp [selectWidth]) rfl

theorem schIdle : Statement .schIdle :=
  of_row .sched 0b1111 0b0000 rfl rfl rfl rfl (by simp [selectWidth]) rfl

theorem schTrigger : Statement .schTrigger :=
  of_row .sched 0b1111 0b0010 rfl rfl rfl rfl (by simp [selectWidth]) rfl

theorem schCount : Statement .schCount :=
  of_row .sched 0b1101 0b0100 rfl rfl rfl rfl (by simp [selectWidth]) rfl

theorem schExit : Statement .schExit :=
  of_row .sched 0b1101 0b0101 rfl rfl rfl rfl (by simp [selectWidth]) rfl


end Sys2Proof.Laws.TableRow
end

