-- ==== Sys2Proof/Laws/Tick.lean ====
section
/-! SUPPORT. What one clock edge does, said once: the next registers of each unit in terms of the signals of the cycle, and the next
state made of them. -/

namespace Sys2Proof.Machine

/-! ### Sequencing -/

theorem andThen_eq_next {α β : Type} {o : Host.Outcome α Fault Refusal} {f : α → Host.Outcome β Fault Refusal} {b : β} :
    andThen o f = .next b ↔ ∃ a, o = .next a ∧ f a = .next b := by
  cases o <;> simp [andThen]

@[simp] theorem andThen_next {α β : Type} (a : α) (f : α → Host.Outcome β Fault Refusal) : andThen (.next a) f = f a := rfl

theorem regsOr_eq_next {α : Type} {u : UnitId} {r : Option α} {a : α} : regsOr u r = .next a ↔ r = some a := by
  cases r <;> simp [regsOr]

/-- `gather` answers the list of the values, one per index. -/
theorem gather_eq_next {α : Type} {f : Nat → Host.Outcome α Fault Refusal} {ks : List Nat} {as : List α} :
    gather f ks = .next as ↔ as.length = ks.length ∧ ∀ j, (hj : j < ks.length) → ∃ a, as[j]? = some a ∧ f ks[j] = .next a := by
  induction ks generalizing as with
  | nil =>
    constructor
    · intro h; cases h; simp
    · rintro ⟨h, -⟩; rw [List.length_eq_zero_iff.mp h]; rfl
  | cons k ks ih =>
    rw [gather, andThen_eq_next]
    constructor
    · rintro ⟨a, ha, h⟩
      obtain ⟨bs, hbs, h⟩ := andThen_eq_next.mp h
      cases h
      obtain ⟨hl, hv⟩ := ih.mp hbs
      refine ⟨by simp [hl], fun j hj => ?_⟩
      cases j with
      | zero => exact ⟨a, rfl, ha⟩
      | succ j => exact hv j (by simpa using hj)
    · rintro ⟨hl, hv⟩
      cases as with
      | nil => simp at hl
      | cons a as =>
        obtain ⟨a', ha', hf⟩ := hv 0 (by simp)
        cases ha'
        refine ⟨a, hf, andThen_eq_next.mpr ⟨as, ih.mpr ⟨by simpa using hl, fun j hj => ?_⟩, rfl⟩⟩
        exact hv (j + 1) (by simpa using hj)

theorem gather_range_eq_next {α : Type} {f : Nat → Host.Outcome α Fault Refusal} {n : Nat} {as : List α} :
    gather f (List.range n) = .next as ↔ as.length = n ∧ ∀ j, j < n → ∃ a, as[j]? = some a ∧ f j = .next a := by
  rw [gather_eq_next]
  simp

/-! ### The next registers of each unit -/

/-- The registers of stage `i` of core `c` after the edge, where they are `r` before it. -/
def stageNextRegs (s : State) (c i : Nat) (r : StageRegs) : StageRegs :=
  if (inputsOf s).rst then stageReset (stageEnv s c i) r
  else if enableOf s c then
    (if syncOf s c then syncByOffset (stageEnv s c i) r else phaseByCount (stageEnv s c i) r)
  else r

/-- The registers of core `c`'s FFT after the edge, where they are `f` before it. -/
def fftNextRegs (s : State) (c : Nat) (f : FftRegs) : FftRegs :=
  if (inputsOf s).rst then fftReset c s f
  else if inValidOf s c then
    (if f.samplesInCnt == 0 && !fftInflight f then fftSync c s f else fftIngest c s f)
  else if fftInflight f then fftFlush c s f else fftIdle c s f

/-- The registers of core `c`'s DMA after the edge, where they are `d` before it. -/
def dmaNextRegs (s : State) (c : Nat) (d : DmaRegs) : DmaRegs :=
  if (inputsOf s).rst then dmaReset d
  else if d.busy then
    (if d.active then (if d.sampleCounter.ult d.numSamples then dmaIssue s.cfg d else dmaLoopend d) else dmaDone d)
  else if dmaStart s c then dmaAccept (baseAddrIn s c) (numSamplesIn s c) d else dmaIdle d

/-- The registers of the scheduler after the edge. -/
def schedNextRegs (s : State) : SchedRegs :=
  if (inputsOf s).rst then schReset s.sched
  else if s.sched.activeStagger then (if schedExceed s.cfg s.sched then schExit s.sched else schCount s.sched)
  else if globalStart s then schTrigger s.sched else schIdle s.sched

/-- The operation a stage's select word selects, performed. -/
theorem runUnit_stage {s : State} {c i : Nat} {r : StageRegs} (h : stageAt s c i = some r) :
    runUnit s (.stage c i) = .next (setStage s c i (stageNextRegs s c i r)) := by
  have hp : ph2Of s c i = stagePh2 s.cfg.n i (syncOf s c) r := by simp [ph2Of, h]
  have e1 : (stageEnv s c i).n = s.cfg.n := rfl
  have e2 : (stageEnv s c i).stage = i := rfl
  unfold runUnit
  rw [selectOf, decode_stageSelect, hp]
  unfold stageNextRegs
  cases hr : (inputsOf s).rst
  · cases he : enableOf s c
    · simp [exec, execStgHold, onStage_some h, stageHold]
    · cases hs : syncOf s c
      · cases h2 : stagePh2 s.cfg.n i false r <;>
          simp [exec, execStgP1, execStgP2, onStage_some h, phaseByCount, e1, e2, h2]
      · cases h2 : stagePh2 s.cfg.n i true r <;>
          simp [exec, execStgSyncP1, execStgSyncP2, onStage_some h, syncByOffset, e1, e2, h2]
  · simp [exec, execStgReset, onStage_some h]

/-- The operation an FFT's select word selects, performed. -/
theorem runUnit_fft {s : State} {c : Nat} {f : FftRegs} (h : fftAt s c = some f) :
    runUnit s (.fft c) = .next (setFft s c (fftNextRegs s c f)) := by
  have he : enableOf s c = (inValidOf s c || fftInflight f) := by simp [enableOf, h, fftEnable]
  have hs : syncOf s c = (f.samplesInCnt == 0 && inValidOf s c && !fftInflight f) := by simp [syncOf, h, fftStageSync]
  unfold runUnit
  rw [selectOf, he, hs, decode_fftSelect]
  unfold fftNextRegs
  cases hr : (inputsOf s).rst
  · cases hv : inValidOf s c
    · cases hi : fftInflight f <;> simp [exec, execFftIdle, execFftFlush, onFft_some h]
    · cases hz : (f.samplesInCnt == 0 && !fftInflight f) <;> simp [exec, execFftSync, execFftIngest, onFft_some h]
  · simp [exec, execFftReset, onFft_some h]

/-- The operation a DMA's select word selects, performed. -/
theorem runUnit_dma {s : State} {c : Nat} {d : DmaRegs} (h : dmaAt s c = some d) (hab : d.active = true → d.busy = true) :
    runUnit s (.dma c) = .next (setDma s c (dmaNextRegs s c d)) := by
  unfold runUnit
  simp only [selectOf, h, Option.elim_some, dmaIssueCond]
  rw [decode_dmaSelect c _ _ _ _ _ hab]
  unfold dmaNextRegs
  cases hr : (inputsOf s).rst
  · cases hb : d.busy
    · cases hs : dmaStart s c <;> simp [exec, execDmaAccept, execDmaIdle, onDma_some h]
    · cases ha : d.active
      · simp [exec, execDmaDone, onDma_some h]
      · cases hm : d.sampleCounter.ult d.numSamples <;> simp [exec, execDmaIssue, execDmaLoopend, onDma_some h]
  · simp [exec, execDmaReset, onDma_some h]

/-- The operation the scheduler's select word selects, performed. -/
theorem runUnit_sched {s : State} (h : s.sched.activeStagger = false → schedExceed s.cfg s.sched = false) :
    runUnit s .sched = .next (setSched s (schedNextRegs s)) := by
  unfold runUnit
  rw [selectOf, decode_schedSelect _ _ _ _ h]
  unfold schedNextRegs
  cases hr : (inputsOf s).rst
  · cases ha : s.sched.activeStagger
    · cases hs : globalStart s <;> simp [exec, execSchTrigger, execSchIdle, onSched_eq]
    · cases hx : schedExceed s.cfg s.sched <;> simp [exec, execSchExit, execSchCount, onSched_eq]
  · simp [exec, execSchReset, onSched_eq]

/-- In Idle the scheduler's counter is 0, so it does not exceed the bound. -/
theorem exceed_false_of_idle {p : Params} {r : SchedRegs} (h : r.activeStagger = false → r.staggerCounter = 0#32) :
    r.activeStagger = false → schedExceed p r = false := by
  intro ha
  simp [schedExceed, h ha]

theorem nextStage_eq {s : State} {c i : Nat} {r : StageRegs} (h : stageAt s c i = some r) :
    nextStage s c i = .next (stageNextRegs s c i r) := by
  simp [nextStage, runUnit_stage h, h, regsOr]

theorem nextDma_eq {s : State} {c : Nat} {d : DmaRegs} (h : dmaAt s c = some d) (hab : d.active = true → d.busy = true) :
    nextDma s c = .next (dmaNextRegs s c d) := by
  simp [nextDma, runUnit_dma h hab, h, regsOr]

theorem nextSched_eq {s : State} (h : s.sched.activeStagger = false → schedExceed s.cfg s.sched = false) :
    nextSched s = .next (schedNextRegs s) := by
  simp [nextSched, runUnit_sched h]

/-- An FFT's own operation and the operations of its stages agree on the stages (42_fft.md R135): FFT operation by FFT operation, what
it does to stage `i` is what the stage's own select word selects. -/
theorem fftNextRegs_stages {s : State} {c : Nat} {f : FftRegs} (h : fftAt s c = some f) :
    (fftNextRegs s c f).stages = f.stages.mapIdx (fun i r => stageNextRegs s c i r) := by
  have he : enableOf s c = (inValidOf s c || fftInflight f) := by simp [enableOf, h, fftEnable]
  have hs : syncOf s c = (f.samplesInCnt == 0 && inValidOf s c && !fftInflight f) := by simp [syncOf, h, fftStageSync]
  unfold fftNextRegs stageNextRegs
  rw [he, hs]
  cases hr : (inputsOf s).rst
  · cases hv : inValidOf s c
    · cases hi : fftInflight f
      · simp [fftIdle, allStages, stageHold]
      · simp [fftFlush, allStages]
    · cases hz : (f.samplesInCnt == 0 && !fftInflight f) <;> simp [fftSync, fftIngest, allStages, hz]
  · simp [fftReset, allStages]

/-- The registers of an FFT that has its `K` stages, after the edge. -/
theorem nextFft_eq {s : State} {c : Nat} {f : FftRegs} (h : fftAt s c = some f) (hk : f.stages.length = numStages s.cfg.n) :
    nextFft s c = .next (fftNextRegs s c f) := by
  have hst : gather (nextStage s c) (List.range (numStages s.cfg.n)) = .next (fftNextRegs s c f).stages := by
    rw [gather_range_eq_next, fftNextRegs_stages h]
    refine ⟨by simp [hk], fun j hj => ?_⟩
    have hr : stageAt s c j = some (f.stages[j]'(by omega)) := by simp [stageAt, h, hk, hj]
    exact ⟨stageNextRegs s c j (f.stages[j]'(by omega)), by simp [hk, hj], nextStage_eq hr⟩
  simp [nextFft, runUnit_fft h, h, regsOr, hst]

/-- The registers of core `c` after the edge, where they are `k` before it. -/
def coreNextRegs (s : State) (c : Nat) (k : CoreRegs) : CoreRegs :=
  { dma := dmaNextRegs s c k.dma, fft := fftNextRegs s c k.fft }

theorem nextCore_eq {s : State} {c : Nat} {k : CoreRegs} (h : s.cores[c]? = some k)
    (hab : k.dma.active = true → k.dma.busy = true) (hk : k.fft.stages.length = numStages s.cfg.n) :
    nextCore s c = .next (coreNextRegs s c k) := by
  simp [nextCore, nextDma_eq (dmaAt_of_core h) hab, nextFft_eq (fftAt_of_core h) hk, coreNextRegs]

/-! ### The next state -/

/-- The state after the edge. -/
def stateNext (s : State) : State :=
  { cfg := s.cfg
    sched := schedNextRegs s
    cores := s.cores.mapIdx (fun c k => coreNextRegs s c k)
    mem := memNext s
    rdata := rdataNext s
    trace := s.trace.tail
    cycle := s.cycle + 1 }

/-- One clock edge of a machine whose units all have the registers the configuration gives them and whose select words all match a
row: every unit's registers change as its operation says, and nothing else. -/
theorem step_eq_next {s : State} (hl : s.cfg.Legal)
    (hs : s.sched.activeStagger = false → schedExceed s.cfg s.sched = false)
    (hc : s.cores.length = s.cfg.numCores)
    (hk : ∀ k ∈ s.cores, (k.dma.active = true → k.dma.busy = true) ∧ k.fft.stages.length = numStages s.cfg.n) :
    step s = .next (stateNext s) := by
  have hg : gather (nextCore s) (List.range s.cfg.numCores) = .next (stateNext s).cores := by
    rw [gather_range_eq_next]
    refine ⟨by simp [stateNext, hc], fun j hj => ?_⟩
    have hj' : j < s.cores.length := by omega
    have hm := hk _ (List.getElem_mem hj')
    exact ⟨coreNextRegs s j s.cores[j], by simp [stateNext, hj'], nextCore_eq (by simp [hj']) hm.1 hm.2⟩
  unfold step
  rw [show configRefusal s.cfg = none from hl]
  simp [tick, nextSched_eq hs, hg]
  rfl

/-- One clock edge of a machine that meets the invariant. -/
theorem step_of_inv {s : State} (h : s.Inv) : step s = .next (stateNext s) := by
  obtain ⟨hl, hs, hc, hk, -, -⟩ := h
  exact step_eq_next hl (exceed_false_of_idle hs.1) hc (fun k hm => ⟨(hk k hm).1.2.2.1, (hk k hm).2.2.2.2.1⟩)

/-- With `rst = 1` every select word is a RESET row, whatever the registers hold (30_encoding.md R83). -/
theorem decode_selectOf_reset {s : State} (hr : (inputsOf s).rst = true) (u : UnitId) :
    decode u (selectOf s u) = .ok (match u with
      | .stage c i => .stgReset c i
      | .fft c => .fftReset c
      | .dma c => .dmaReset c
      | .sched => .schReset) := by
  cases u with
  | stage c i => rw [selectOf, hr, decode_stageSelect]; rfl
  | fft c =>
    rw [selectOf, hr]
    generalize enableOf s c = a, inValidOf s c = b, syncOf s c = d
    cases a <;> cases b <;> cases d <;> rfl
  | dma c =>
    rw [selectOf, hr]
    generalize (dmaAt s c).elim false (·.busy) = a, dmaStart s c = b, (dmaAt s c).elim false (·.active) = d,
      (dmaAt s c).elim false dmaIssueCond = e
    cases a <;> cases b <;> cases d <;> cases e <;> rfl
  | sched =>
    rw [selectOf, hr]
    generalize s.sched.activeStagger = a, globalStart s = b, schedExceed s.cfg s.sched = d
    cases a <;> cases b <;> cases d <;> rfl

/-- A step answers a next state only in a legal configuration, and then it is a tick. -/
theorem step_next_legal {s t : State} (h : step s = .next t) : s.cfg.Legal ∧ tick s = .next t := by
  unfold step at h
  split at h
  · cases h
  · next hl => exact ⟨hl, h⟩

/-- What a step's next state is made of: the registers of each unit are those that its own operation leaves. -/
theorem tick_next {s t : State} (h : tick s = .next t) :
    nextSched s = .next t.sched ∧ t.cores.length = s.cfg.numCores ∧
      (∀ c, c < s.cfg.numCores → ∃ k, t.cores[c]? = some k ∧ nextCore s c = .next k) ∧
      t.cfg = s.cfg ∧ t.mem = memNext s ∧ t.rdata = rdataNext s ∧ t.trace = s.trace.tail ∧ t.cycle = s.cycle + 1 := by
  obtain ⟨r, hr, h⟩ := andThen_eq_next.mp h
  obtain ⟨ks, hks, h⟩ := andThen_eq_next.mp h
  obtain ⟨hl, hv⟩ := gather_range_eq_next.mp hks
  cases h
  exact ⟨hr, hl, hv, rfl, rfl, rfl, rfl, rfl⟩

end Sys2Proof.Machine
end

