-- ==== Sys2Proof/Laws/Run.lean ====
section
/-! SUPPORT. Runs of several clock edges, one edge at a time. -/

namespace Sys2Proof.Machine

theorem stateAt_zero (s : State) : StateAt s 0 s := rfl

/-- A run of `k + 1` edges is one edge and a run of `k`. -/
theorem stateAt_succ {s t u : State} {k : Nat} (h : step s = .next t) : StateAt s (k + 1) u ↔ StateAt t k u := by
  unfold StateAt
  simp only [Host.Core.run, show Sys2Proof.core.step s = step s from rfl, h]

/-- A machine is in one state at most after `k` edges. -/
theorem stateAt_unique {s t u : State} {k : Nat} (ht : StateAt s k t) (hu : StateAt s k u) : t = u := by
  unfold StateAt at ht hu
  rw [ht] at hu
  exact Host.Outcome.next.inj hu

@[simp] theorem stateNext_cfg (s : State) : (stateNext s).cfg = s.cfg := rfl
@[simp] theorem stateNext_sched (s : State) : (stateNext s).sched = schedNextRegs s := rfl
@[simp] theorem stateNext_mem (s : State) : (stateNext s).mem = memNext s := rfl
@[simp] theorem stateNext_rdata (s : State) : (stateNext s).rdata = rdataNext s := rfl
@[simp] theorem stateNext_trace (s : State) : (stateNext s).trace = s.trace.tail := rfl
@[simp] theorem stateNext_cycle (s : State) : (stateNext s).cycle = s.cycle + 1 := rfl

/-- A core's registers after an edge. -/
theorem stateNext_core {s : State} {c : Nat} {k : CoreRegs} (h : s.cores[c]? = some k) :
    (stateNext s).cores[c]? = some (coreNextRegs s c k) := by
  simp [stateNext, List.getElem?_mapIdx, h]

theorem dmaAt_stateNext {s : State} {c : Nat} {d : DmaRegs} (h : dmaAt s c = some d) :
    dmaAt (stateNext s) c = some (dmaNextRegs s c d) := by
  obtain ⟨k, hk, rfl⟩ := dmaAt_eq_some.mp h
  exact dmaAt_of_core (stateNext_core hk)

theorem fftAt_stateNext {s : State} {c : Nat} {f : FftRegs} (h : fftAt s c = some f) :
    fftAt (stateNext s) c = some (fftNextRegs s c f) := by
  obtain ⟨k, hk, rfl⟩ := fftAt_eq_some.mp h
  exact fftAt_of_core (stateNext_core hk)

/-- The inputs of a cycle are the head of what is left of the trace. -/
theorem inputsOf_of_trace {s t : State} {k : Nat} (h : t.trace = s.trace.drop k) : inputsOf t = s.trace.getD k Inputs.idle := by
  simp [inputsOf, h, List.getD]

end Sys2Proof.Machine
end

