-- ==== Sys2Proof/Tests/Slice0.lean ====
section
/-! SUPPORT. Tests with results from spec/95_test_vectors.md and the examples of the rules, and one witness theorem per obligation
that has hypotheses. -/

open Sys2Proof Sys2Proof.Machine

namespace Sys2Proof.Tests

set_option Elab.async false

/-! ### Helpers -/

/-- The next state of an outcome. -/
def nextOf (o : Result) : Option State :=
  match o with
  | .next t => some t
  | .fault _ => none
  | .refused _ => none

/-- A configuration with 64-bit data. -/
def conf (n aw cores : Nat) (hop : Int) (w : Wiring) : Params :=
  { n := n, aw := aw, dw := 64, numCores := cores, hopSize := hop, wiring := w }

/-- Small binary64 values: the sample with the unsigned integer components `a` and `b`. -/
def smp (a b : Nat) : Sample := ⟨u32ToF64 (BitVec.ofNat 32 a), u32ToF64 (BitVec.ofNat 32 b)⟩

/-- A standalone FFT after a reset, with the sample on its port in this cycle where one is given. -/
def fftState (n : Nat) (x : Option Sample) : State :=
  State.resetOf (conf n 4 1 0 .fftAlone)
    [{ Inputs.idle with inValid := x.isSome, inData := x.getD Sample.zero }]

/-- A machine after a reset whose stage `i` holds `r`, with `x` on the FFT's port. -/
def stageState (n i : Nat) (x : Sample) (r : StageRegs) : State := setStage (fftState n (some x)) 0 i r

/-- A standalone FFT with `N = 4` whose own registers are given. -/
def fft4 (samplesIn outCnt : Nat) (v : List Bool) (x : Option Sample) : State :=
  setFft (fftState 4 x) 0 { fftResetRegs 4 with samplesInCnt := samplesIn, outCntReg := outCnt, v := v }

/-- A standalone DMA with its inputs of this cycle. -/
def dmaState (start : Bool) (base num : Nat) (d : DmaRegs) : State :=
  setDma
    (State.resetOf (conf 4 4 1 0 .dmaAlone)
      [{ Inputs.idle with start := start, xfer := [⟨base, BitVec.ofNat 32 num⟩] }]) 0 d

/-- A scheduler of `cores` cores with hop `hop`, its counter at `n`. -/
def schedState (cores : Nat) (hop : Int) (start : Bool) (r : SchedRegs) : State :=
  setSched (State.resetOf (conf 2 4 cores hop .interleaved) [{ Inputs.idle with start := start }]) r

/-! ### Well-formedness: an ill-formed term for each check, refused -/

theorem test_config_legal : configRefusal Config.default = none := by decide
theorem test_config_not_power : configRefusal (conf 6 4 1 0 .interleaved) = some .nNotPowerOfTwo := by decide
theorem test_config_below_two : configRefusal (conf 1 4 1 0 .interleaved) = some .nBelow2 := by decide
theorem test_config_too_large : configRefusal (conf (2 ^ 32) 4 1 0 .interleaved) = some .nTooLarge := by decide +kernel
theorem test_config_largest : configRefusal (conf (2 ^ 31) 4 1 0 .interleaved) = none := by decide +kernel
theorem test_config_no_address : configRefusal (conf 4 0 1 0 .interleaved) = some .awZero := by decide
theorem test_config_data_width : configRefusal { conf 4 4 1 0 .interleaved with dw := 32 } = some .dwNot64 := by decide
theorem test_config_no_cores : configRefusal (conf 4 4 0 0 .interleaved) = some .noCores := by decide
theorem test_config_hop_negative : configRefusal (conf 4 4 1 (-1) .interleaved) = some .hopNegative := by decide
/-- `NUM_CORES * HOP_SIZE + 3 = 2^32`. -/
theorem test_config_overflow : configRefusal (conf 4 4 1 4294967293 .interleaved) = some .staggerCounterOverflow := by
  decide +kernel
/-- `NUM_CORES * HOP_SIZE + 3 = 2^32 - 1`. -/
theorem test_config_largest_hop : configRefusal (conf 4 4 1 4294967292 .interleaved) = none := by decide +kernel

/-- A core or a stage that does not exist, in each kind of operation and unit. -/
theorem test_wf_absent_units :
    (Instr.stgReset 2 0).wf Config.default = false ∧ (Instr.stgHold 0 2).wf Config.default = false ∧
    (Instr.stgP1 2 0).wf Config.default = false ∧ (Instr.stgP2 0 2).wf Config.default = false ∧
    (Instr.fftReset 2).wf Config.default = false ∧ (Instr.fftIdle 2).wf Config.default = false ∧
    (Instr.fftFlush 2).wf Config.default = false ∧ (Instr.fftIngest 2).wf Config.default = false ∧
    (Instr.fftSync 2).wf Config.default = false ∧ (Instr.dmaReset 2).wf Config.default = false ∧
    (Instr.dmaIdle 2).wf Config.default = false ∧ (Instr.dmaAccept 2).wf Config.default = false ∧
    (Instr.dmaIssue 2).wf Config.default = false ∧ (Instr.dmaLoopend 2).wf Config.default = false ∧
    (Instr.dmaDone 2).wf Config.default = false ∧ (UnitId.stage 2 0).wf Config.default = false ∧
    (UnitId.stage 0 2).wf Config.default = false ∧ (UnitId.fft 2).wf Config.default = false ∧
    (UnitId.dma 2).wf Config.default = false := by decide

/-- A SYNC of the phase that the stage's offset does not select: stage 0 of `N = 4` has offset 0, stage 1 offset 1. -/
theorem test_wf_sync_phase :
    (Instr.stgSyncP1 0 1).wf Config.default = false ∧ (Instr.stgSyncP2 0 0).wf Config.default = false ∧
    (Instr.stgSyncP1 0 0).wf Config.default = true ∧ (Instr.stgSyncP2 0 1).wf Config.default = true := by decide

/-! ### Derived constants (70_reset_and_hazards.md R262) -/

theorem test_constants_4 : numStages 4 = 2 ∧ latency 4 = 5 ∧ initOffset 4 0 = 0 ∧ initOffset 4 1 = 1 := by decide
theorem test_constants_64 :
    latency 64 = 69 ∧ (List.range 6).map (initOffset 64) = [0, 31, 14, 5, 0, 1] := by decide
theorem test_constants_1024 :
    latency 1024 = 1033 ∧ (List.range 10).map (initOffset 1024) = [0, 511, 254, 125, 60, 27, 10, 1, 0, 1] := by
  decide +kernel

/-! ### Decoding: the words of the maps of 30_encoding.md R78 to R81, written out, for every operation -/

theorem test_decode_stage :
    decode (.stage 0 1) 0b1000#8 = .ok (.stgReset 0 1) ∧ decode (.stage 0 1) 0b1111#8 = .ok (.stgReset 0 1) ∧
    decode (.stage 0 1) 0b0000#8 = .ok (.stgHold 0 1) ∧ decode (.stage 0 1) 0b0010#8 = .ok (.stgHold 0 1) ∧
    decode (.stage 0 1) 0b0100#8 = .ok (.stgP1 0 1) ∧ decode (.stage 0 1) 0b0101#8 = .ok (.stgP2 0 1) ∧
    decode (.stage 0 1) 0b0110#8 = .ok (.stgSyncP1 0 1) ∧ decode (.stage 0 1) 0b0111#8 = .ok (.stgSyncP2 0 1) := by
  refine ⟨rfl, rfl, rfl, rfl, rfl, rfl, rfl, rfl⟩

theorem test_decode_fft :
    decode (.fft 1) 0b1000#8 = .ok (.fftReset 1) ∧ decode (.fft 1) 0b1101#8 = .ok (.fftReset 1) ∧
    decode (.fft 1) 0b0000#8 = .ok (.fftIdle 1) ∧ decode (.fft 1) 0b0100#8 = .ok (.fftFlush 1) ∧
    decode (.fft 1) 0b0110#8 = .ok (.fftIngest 1) ∧ decode (.fft 1) 0b0111#8 = .ok (.fftSync 1) ∧
    decode (.fft 1) 0b0001#8 = .error .noRow ∧ decode (.fft 1) 0b10000#8 = .error .tooWide := by
  refine ⟨rfl, rfl, rfl, rfl, rfl, rfl, rfl, rfl⟩

theorem test_decode_dma :
    decode (.dma 0) 0b10000#8 = .ok (.dmaReset 0) ∧ decode (.dma 0) 0b11111#8 = .ok (.dmaReset 0) ∧
    decode (.dma 0) 0b00000#8 = .ok (.dmaIdle 0) ∧ decode (.dma 0) 0b00100#8 = .ok (.dmaAccept 0) ∧
    decode (.dma 0) 0b01011#8 = .ok (.dmaIssue 0) ∧ decode (.dma 0) 0b01111#8 = .ok (.dmaIssue 0) ∧
    decode (.dma 0) 0b01010#8 = .ok (.dmaLoopend 0) ∧ decode (.dma 0) 0b01100#8 = .ok (.dmaDone 0) ∧
    decode (.dma 0) 0b01101#8 = .error .noRow ∧ decode (.dma 0) 0b100000#8 = .error .tooWide := by
  refine ⟨rfl, rfl, rfl, rfl, rfl, rfl, rfl, rfl, rfl, rfl⟩

theorem test_decode_sched :
    decode .sched 0b1000#8 = .ok .schReset ∧ decode .sched 0b0000#8 = .ok .schIdle ∧
    decode .sched 0b0010#8 = .ok .schTrigger ∧ decode .sched 0b0100#8 = .ok .schCount ∧
    decode .sched 0b0110#8 = .ok .schCount ∧ decode .sched 0b0101#8 = .ok .schExit ∧
    decode .sched 0b0111#8 = .ok .schExit ∧ decode .sched 0b0011#8 = .error .noRow := by
  refine ⟨rfl, rfl, rfl, rfl, rfl, rfl, rfl, rfl⟩

/-- The bare words of the table, each in the first unit that has a row for it. -/
theorem test_decode_table_words :
    decodeTableWord 8 16 = some (.dmaReset 0) ∧ decodeTableWord 8 11 = some (.dmaIssue 0) ∧
    decodeTableWord 8 6 = some (.fftIngest 0) ∧ decodeTableWord 8 5 = some .schExit ∧
    decodeTableWord 8 2 = some .schTrigger ∧ decodeTableWord 8 1 = some (.stgHold 0 0) ∧ decodeTableWord 8 255 = none := by
  refine ⟨rfl, rfl, rfl, rfl, rfl, rfl, rfl⟩

/-! ### Sample arithmetic (V-SMP, E8) -/

/-- S1: `(1,2) + (3,-5) = (4,-3)`. -/
theorem test_sadd :
    sadd ⟨0, 0, 0⟩ ⟨0x3FF0000000000000, 0x4000000000000000⟩ ⟨0x4008000000000000, 0xC014000000000000⟩ =
      ⟨0x4010000000000000, 0xC008000000000000⟩ := by decide +kernel

/-- S2: `(-0.0,1) + ZERO = (+0,1)`. -/
theorem test_sadd_negative_zero :
    sadd ⟨0, 0, 0⟩ ⟨0x8000000000000000, 0x3FF0000000000000⟩ Sample.zero = ⟨0, 0x3FF0000000000000⟩ := by decide +kernel

/-- S3: `(1,2) - (3,-5) = (-2,7)`. -/
theorem test_ssub :
    ssub ⟨0, 0, 0⟩ ⟨0x3FF0000000000000, 0x4000000000000000⟩ ⟨0x4008000000000000, 0xC014000000000000⟩ =
      ⟨0xC000000000000000, 0x401C000000000000⟩ := by decide +kernel

/-- S4: `(7,-3) - (7,-3) = (+0,+0)`. -/
theorem test_ssub_self :
    ssub ⟨0, 0, 0⟩ ⟨0x401C000000000000, 0xC008000000000000⟩ ⟨0x401C000000000000, 0xC008000000000000⟩ = Sample.zero := by
  decide +kernel

/-- S5: `(1,2) * (3,4) = (-5,10)`. -/
theorem test_smul :
    smul ⟨0, 0, 0⟩ ⟨0x3FF0000000000000, 0x4000000000000000⟩ ⟨0x4008000000000000, 0x4010000000000000⟩ =
      ⟨0xC014000000000000, 0x4024000000000000⟩ := by decide +kernel

/-- S7 and S11's product with the reference `c = 6.123233995736766e-17 = 0x3C91A62633145C07`: `(-2,-4) * (c,-1)` is
`(-4, 1.9999999999999998)`. -/
theorem test_smul_rounds :
    smul ⟨0, 0, 0⟩ ⟨0xC000000000000000, 0xC010000000000000⟩ ⟨0x3C91A62633145C07, 0xBFF0000000000000⟩ =
      ⟨0xC010000000000000, 0x3FFFFFFFFFFFFFFF⟩ := by decide +kernel

/-- S8, S9: `smag((3,4)) = 5`, `smag(ZERO) = +0`. -/
theorem test_smag :
    smag ⟨0, 0, 0⟩ ⟨0x4008000000000000, 0x4010000000000000⟩ = 0x4014000000000000 ∧
      smag ⟨0, 0, 0⟩ Sample.zero = 0 := by decide +kernel

/-- Binary64 itself (40_sample.md R90): `0.1 + 0.2` rounds to `0.30000000000000004`; a tie goes to even; a subnormal sum is kept;
an overflow is infinity. -/
theorem test_rounding :
    fadd 0 0x3FB999999999999A 0x3FC999999999999A = 0x3FD3333333333334 ∧
    fadd 0 0x4340000000000000 0x3FF0000000000000 = 0x4340000000000000 ∧
    fadd 0 0x4340000000000001 0x3FF0000000000000 = 0x4340000000000002 ∧
    fadd 0 1 1 = 2 ∧ fadd 0 0x7FEFFFFFFFFFFFFF 0x7FEFFFFFFFFFFFFF = 0x7FF0000000000000 := by decide +kernel

/-- Infinities and signed zeros (40_sample.md R100): `inf - inf` and `0 * inf` are the drawn NaN; `-2 * 0 = -0`; `sqrt(-0) = -0`. -/
theorem test_specials :
    fsub 7 0x7FF0000000000000 0x7FF0000000000000 = 7 ∧ fmul 7 0 0xFFF0000000000000 = 7 ∧
    fmul 7 0xC000000000000000 0 = 0x8000000000000000 ∧ fmul 7 0xC000000000000000 0x7FF0000000000000 = 0xFFF0000000000000 ∧
    fsqrt 7 0x8000000000000000 = 0x8000000000000000 ∧ fsqrt 7 0xBFF0000000000000 = 7 := by decide +kernel

/-- E8: the packed words. -/
theorem test_unpack :
    unpack 0x0000000600000002 = ⟨0x4018000000000000, 0x4000000000000000⟩ ∧ unpack 0 = Sample.zero ∧
    unpack 0xFFFFFFFF00000000 = ⟨0x41EFFFFFFFE00000, 0⟩ ∧ unpack 0x00000000FFFFFFFF = ⟨0, 0x41EFFFFFFFE00000⟩ ∧
    unpack 0x8000000000000001 = ⟨0x41E0000000000000, 0x3FF0000000000000⟩ := by decide +kernel

/-! ### Stage operations (V-STG) -/

/-- T1: STG.RESET of stage 1 of `N = 4`. -/
theorem test_stg_reset :
    (nextOf (exec (.stgReset 0 1) (stageState 4 1 (smp 9 9) ⟨0, [smp 1 1], [smp 2 2], smp 3 3⟩))).bind (stageAt · 0 1) =
      some ⟨1, [Sample.zero], [Sample.zero], Sample.zero⟩ := by decide +kernel

/-- T2: STG.HOLD. -/
theorem test_stg_hold :
    (nextOf (exec (.stgHold 0 0) (stageState 4 0 (smp 9 9) ⟨3, [smp 1 1, smp 2 2], [smp 3 3, smp 4 4], smp 5 5⟩))).bind
      (stageAt · 0 0) = some ⟨3, [smp 1 1, smp 2 2], [smp 3 3, smp 4 4], smp 5 5⟩ := by decide +kernel

/-- T3: STG.P1 at `cnt = 0`. -/
theorem test_stg_p1 :
    (nextOf (exec (.stgP1 0 0)
      (stageState 4 0 (smp 5 0) ⟨0, [Sample.zero, Sample.zero], [smp 7 1, smp 2 2], Sample.zero⟩))).bind (stageAt · 0 0) =
      some ⟨1, [smp 5 0, Sample.zero], [smp 7 1, smp 2 2], smp 7 1⟩ := by decide +kernel

/-- T4: STG.P1 at `cnt = 1`, the last of Phase 1. -/
theorem test_stg_p1_last :
    (nextOf (exec (.stgP1 0 0)
      (stageState 4 0 (smp 6 0) ⟨1, [smp 5 0, Sample.zero], [smp 7 1, smp 2 2], Sample.zero⟩))).bind (stageAt · 0 0) =
      some ⟨2, [smp 5 0, smp 6 0], [smp 7 1, smp 2 2], smp 2 2⟩ := by decide +kernel

/-- T5: STG.P2 at `cnt = 2`: the sum, the count and the untouched input buffer; the stored difference has an open twiddle. -/
theorem test_stg_p2 :
    ((nextOf (exec (.stgP2 0 0)
      (stageState 4 0 (smp 3 0) ⟨2, [smp 1 0, Sample.zero], [Sample.zero, smp 8 8], Sample.zero⟩))).bind (stageAt · 0 0)).map
        (fun r => (r.cnt, r.bufIn, r.bufOut.length, r.bufOut.getD 1 Sample.zero, r.out)) =
      some (3, [smp 1 0, Sample.zero], 2, smp 8 8, smp 4 0) := by decide +kernel

/-- T10: STG.P2 at `N_i = 2`, where the count wraps. -/
theorem test_stg_p2_wraps :
    ((nextOf (exec (.stgP2 0 0) (stageState 2 0 (smp 1 2) ⟨1, [smp 3 1], [Sample.zero], Sample.zero⟩))).bind
      (stageAt · 0 0)).map (fun r => (r.cnt, r.out)) = some (0, smp 4 3) := by decide +kernel

/-- T7: STG.SYNC.P1. -/
theorem test_stg_sync_p1 :
    (nextOf (exec (.stgSyncP1 0 0)
      (stageState 4 0 (smp 1 0) ⟨3, [smp 1 1, smp 2 2], [smp 3 3, smp 4 4], smp 5 5⟩))).bind (stageAt · 0 0) =
      some ⟨1, [smp 1 0, Sample.zero], [Sample.zero, Sample.zero], Sample.zero⟩ := by decide +kernel

/-- T8: STG.SYNC.P2 of stage 1 of `N = 4`, whose input is the output register of stage 0. -/
theorem test_stg_sync_p2 :
    ((nextOf (exec (.stgSyncP2 0 1)
      (setStage (stageState 4 1 Sample.zero ⟨0, [smp 1 1], [smp 2 2], Sample.zero⟩) 0 0
        ⟨0, [Sample.zero, Sample.zero], [Sample.zero, Sample.zero], smp 9 9⟩))).bind (stageAt · 0 1)).map
        (fun r => (r.cnt, r.bufIn, r.out)) = some (0, [Sample.zero], smp 9 9) := by decide +kernel

/-! ### FFT operations (V-FFT), `N = 4`, `L = 5` -/

/-- F1: FFT.RESET. -/
theorem test_fft_reset :
    (nextOf (exec (.fftReset 0) (fft4 3 2 [true, true, false, true, true] (some (smp 1 0))))).bind (fftAt · 0) =
      some (fftResetRegs 4) := by decide +kernel

/-- F2: FFT.IDLE. -/
theorem test_fft_idle :
    (nextOf (exec (.fftIdle 0) (fft4 2 1 [false, false, false, false, false] none))).bind (fftAt · 0) =
      fftAt (fft4 2 1 [false, false, false, false, false] none) 0 := by decide +kernel

/-- F7: FFT.FLUSH with `v[3]` set advances the output index. -/
theorem test_fft_flush :
    ((nextOf (exec (.fftFlush 0) (fft4 0 0 [false, true, true, true, true] none))).bind (fftAt · 0)).map ownRegs =
      some (1, 0, 1, [false, false, true, true, true]) := by decide +kernel

/-- F8: FFT.FLUSH with `v[3]` clear holds it. -/
theorem test_fft_flush_holds :
    ((nextOf (exec (.fftFlush 0) (fft4 0 3 [false, false, false, false, true] none))).bind (fftAt · 0)).map ownRegs =
      some (1, 0, 3, [false, false, false, false, false]) := by decide +kernel

/-- F9: FFT.INGEST wraps the sample count. -/
theorem test_fft_ingest_wraps :
    ((nextOf (exec (.fftIngest 0) (fft4 3 3 [true, true, true, false, false] (some (smp 4 0))))).bind (fftAt · 0)).map ownRegs =
      some (1, 0, 3, [true, true, true, true, false]) := by decide +kernel

/-- F6: a new block while a sample is in flight is an INGEST. -/
theorem test_fft_ingest_in_flight :
    decode (.fft 0) (selectOf (fft4 0 2 [false, false, false, false, true] (some (smp 1 0))) (.fft 0)) = .ok (.fftIngest 0) := by
  decide +kernel

/-- F3: FFT.SYNC and the select words of its stages. -/
theorem test_fft_sync_words :
    selectOf (fft4 0 3 [false, false, false, false, false] (some (smp 1 0))) (.fft 0) = 0b0111#8 ∧
    selectOf (fft4 0 3 [false, false, false, false, false] (some (smp 1 0))) (.stage 0 0) = 0b0110#8 ∧
    selectOf (fft4 0 3 [false, false, false, false, false] (some (smp 1 0))) (.stage 0 1) = 0b0111#8 := by decide +kernel

/-- F4: FFT.SYNC forces the output index to `N - 1`. -/
theorem test_fft_sync :
    ((nextOf (exec (.fftSync 0) (fft4 0 1 [false, false, false, false, false] (some (smp 1 0))))).bind (fftAt · 0)).map ownRegs =
      some (1, 1, 3, [true, false, false, false, false]) := by decide +kernel

/-- F7's outputs: `out_index = 0` while `in_index = -1`. -/
theorem test_fft_outputs :
    outIndexOut (fft4 0 0 [false, true, true, true, true] none) 0 = 0 ∧
    inIndexOut (fft4 0 0 [false, true, true, true, true] none) 0 = 0xFFFFFFFF ∧
    statusOut (fft4 0 0 [false, true, true, true, true] none) 0 = true := by decide +kernel

/-! ### DMA operations (V-DMA), `AW = 4` -/

/-- D1: DMA.RESET. -/
theorem test_dma_reset :
    (nextOf (exec (.dmaReset 0) (dmaState true 3 3 ⟨1, 8, 4, 5, 4, true, true, true, true⟩))).bind (dmaAt · 0) =
      some dmaResetRegs := by decide

/-- D2: DMA.IDLE. -/
theorem test_dma_idle :
    (nextOf (exec (.dmaIdle 0) (dmaState false 3 3 ⟨1, 8, 8, 9, 8, false, false, false, false⟩))).bind (dmaAt · 0) =
      some ⟨1, 8, 8, 9, 8, false, false, false, false⟩ := by decide

/-- D3: DMA.ACCEPT. -/
theorem test_dma_accept :
    (nextOf (exec (.dmaAccept 0) (dmaState true 1 8 dmaResetRegs))).bind (dmaAt · 0) =
      some ⟨1, 8, 0, 1, 0, false, false, true, true⟩ := by decide

/-- D4: DMA.ISSUE. -/
theorem test_dma_issue :
    (nextOf (exec (.dmaIssue 0) (dmaState true 0 0 ⟨1, 8, 0, 1, 0, false, false, true, true⟩))).bind (dmaAt · 0) =
      some ⟨1, 8, 1, 2, 1, true, false, true, true⟩ := by decide

/-- D5: DMA.ISSUE at the highest address wraps. -/
theorem test_dma_issue_wraps :
    (nextOf (exec (.dmaIssue 0) (dmaState false 0 0 ⟨14, 4, 1, 15, 14, true, false, true, true⟩))).bind (dmaAt · 0) =
      some ⟨14, 4, 2, 0, 15, true, true, true, true⟩ := by decide

/-- D6: DMA.LOOPEND. -/
theorem test_dma_loopend :
    (nextOf (exec (.dmaLoopend 0) (dmaState false 0 0 ⟨1, 8, 8, 9, 8, true, true, true, true⟩))).bind (dmaAt · 0) =
      some ⟨1, 8, 8, 9, 8, false, true, false, true⟩ := by decide

/-- D7: DMA.DONE, its `start` ignored. -/
theorem test_dma_done :
    (nextOf (step (dmaState true 9 1 ⟨1, 8, 8, 9, 8, false, true, false, true⟩))).bind (dmaAt · 0) =
      some ⟨1, 8, 8, 9, 8, false, false, false, false⟩ := by decide +kernel

/-! ### Scheduler operations (V-SCH) -/

/-- H5: SCH.RESET. -/
theorem test_sch_reset : (nextOf (exec .schReset (schedState 3 4 false ⟨true, 2⟩))).map (·.sched) = some ⟨false, 0⟩ := by decide

/-- H1: SCH.IDLE. -/
theorem test_sch_idle : (nextOf (exec .schIdle (schedState 3 0 false ⟨false, 0⟩))).map (·.sched) = some ⟨false, 0⟩ := by decide

/-- H1: SCH.TRIGGER. -/
theorem test_sch_trigger : (nextOf (step (schedState 3 0 true ⟨false, 0⟩))).map (·.sched) = some ⟨true, 0⟩ := by decide +kernel

/-- H3: SCH.COUNT at the bound 6 of two cores with hop 2, its `start` ignored. -/
theorem test_sch_count : (nextOf (step (schedState 2 2 true ⟨true, 6⟩))).map (·.sched) = some ⟨true, 7⟩ := by decide +kernel

/-- H3: SCH.EXIT at counter 7, its `start` ignored. -/
theorem test_sch_exit : (nextOf (step (schedState 2 2 true ⟨true, 7⟩))).map (·.sched) = some ⟨false, 0⟩ := by decide +kernel

/-- H6: the pulses at counter 4 of three cores with hop 4. -/
theorem test_sch_pulses :
    (List.range 3).map (dmaStart (schedState 3 4 false ⟨true, 4⟩)) = [false, true, false] := by decide

/-! ### Memory (V-MEM) -/

/-- M1: a read at the edge of a write returns the old word. -/
theorem test_read_during_write :
    (nextOf (step (State.resetOf (conf 4 4 1 0 .dmaAlone)
      [{ Inputs.idle with wEn := true, wAddr := 0, wData := 0x0000000500000000 }]))).map (fun t => (t.rdata, t.mem)) =
      some ([0], [(0, 0x0000000500000000)]) := by decide +kernel

/-- M2: a write at a reset edge is discarded. -/
theorem test_write_at_reset :
    (nextOf (step (State.resetOf (conf 4 4 1 0 .dmaAlone) [{ Inputs.reset with wEn := true, wAddr := 0, wData := 5 }]))).map
      (·.mem) = some [] := by decide +kernel

/-- Writing 0, what an unlisted address reads as, removes the entry. -/
theorem test_memory_canonical :
    memWrite (memWrite (memWrite [] 3 7) 1 9) 3 0 = [(1, 9)] ∧ Memory.wf [(1, 9), (3, 0)] = false ∧
      Memory.wf [(3, 9), (1, 7)] = false := by decide

/-! ### Presenting an operation -/

/-- The select word of the unit after `withFetchWord` is the word presented, for one word of each unit. -/
theorem test_present_words :
    selectOf (State.reset.withFetchWord 8 11) (.dma 0) = 11#8 ∧ selectOf (State.reset.withFetchWord 8 16) (.dma 0) = 16#8 ∧
    selectOf (State.reset.withFetchWord 8 4) (.dma 0) = 4#8 ∧ selectOf (State.reset.withFetchWord 8 7) (.fft 0) = 7#8 ∧
    selectOf (State.reset.withFetchWord 8 6) (.fft 0) = 6#8 ∧ selectOf (State.reset.withFetchWord 8 5) .sched = 5#8 ∧
    selectOf (State.reset.withFetchWord 8 2) .sched = 2#8 ∧ selectOf (State.reset.withFetchWord 8 1) (.stage 0 0) = 1#8 := by decide +kernel

/-- A step performs it. -/
theorem test_present_steps :
    ((nextOf (step (State.reset.withFetchWord 8 11))).bind (dmaAt · 0)).map (·.sampleCounter) = some 1 ∧
    ((nextOf (step (State.reset.withFetchWord 8 7))).bind (fftAt · 0)).map (·.samplesInCnt) = some 1 ∧
    ((nextOf (step (State.reset.withFetchWord 8 5))).map (·.sched)) = some ⟨false, 0⟩ ∧
    ((nextOf (step (State.reset.withFetchWord 8 2))).map (·.sched)) = some ⟨true, 0⟩ := by decide +kernel


/-! ### Witnesses: concrete states and operands that meet the hypotheses of each obligation, at the ends of their ranges -/

/-- The next state of one step from a sound state. -/
theorem next_of_inv {s : State} (h : s.Inv) : ∃ t, step s = .next t := ⟨_, step_of_inv h⟩

/-- No reset where no line of the trace resets. -/
theorem no_reset_of_trace {s : State} (h : ∀ x ∈ s.trace, x.rst = false) (k : Nat) : NoResetFor s k := by
  intro j _
  rw [List.getD_eq_getElem?_getD]
  cases hj : s.trace[j]? with
  | none => rfl
  | some x => exact h x (List.mem_of_getElem? hj)

/-- The DMA registers of the middle of a transfer of 4 words to the top of a 4-bit address space. -/
def midTransfer : DmaRegs := ⟨14, 4, 1, 15, 14, true, false, true, true⟩

/-- The idle registers of a DMA with an address left from a transfer. -/
def idleDma : DmaRegs := ⟨1, 8, 8, 9, 8, false, false, false, false⟩

/-- The least and the greatest word of each clause. -/
theorem witness_UnmatchedWordsAreTheListedOnes :
    (0b0000#8).toNat < 16 ∧ (0b1111#8).toNat < 16 ∧ (0b00000#8).toNat < 32 ∧ (0b11111#8).toNat < 32 := by decide

theorem witness_ResetTakesPriorityInEverySelectWord :
    (inputsOf (State.resetOf Config.default [Inputs.reset])).rst = true := by decide

theorem witness_SelectWordsAreMadeOfTheNamedSignals :
    (dmaAt State.reset 1).isSome = true ∧ (fftAt State.reset 1).isSome = true ∧ (stageAt State.reset 1 1).isSome = true := by
  decide +kernel

theorem witness_InterleavedWiringDrivesTheUnits :
    State.reset.cfg.wiring = .interleaved ∧ (dmaAt State.reset 0).isSome = true ∧ (stageAt State.reset 0 1).isSome = true := by
  decide +kernel

theorem witness_StgResetReturnsToOffset : stageAt State.reset 1 1 = some (stageResetRegs 4 1) := by decide +kernel

theorem witness_StgHoldFreezesTheStage : stageAt State.reset 0 0 = some (stageResetRegs 4 0) := by decide +kernel

/-- The first and the last count of Phase 1 of stage 0 of `N = 4`. -/
theorem witness_StgPhase1StoresAndEmits :
    (stageAt (stageState 4 0 (smp 5 0) (stageResetRegs 4 0)) 0 0 = some (stageResetRegs 4 0) ∧
      (stageResetRegs 4 0).cnt < delayLen 4 0) ∧
    stageAt (stageState 4 0 (smp 5 0) { stageResetRegs 4 0 with cnt := 1 }) 0 0 = some { stageResetRegs 4 0 with cnt := 1 } ∧
      ({ stageResetRegs 4 0 with cnt := 1 } : StageRegs).cnt < delayLen 4 0 := by decide +kernel

/-- The first and the last count of Phase 2 of stage 0 of `N = 4`. -/
theorem witness_StgPhase2EmitsSumAndStoresDifference :
    (stageAt (stageState 4 0 (smp 5 0) { stageResetRegs 4 0 with cnt := 2 }) 0 0 = some { stageResetRegs 4 0 with cnt := 2 } ∧
      delayLen 4 0 ≤ ({ stageResetRegs 4 0 with cnt := 2 } : StageRegs).cnt) ∧
    stageAt (stageState 4 0 (smp 5 0) { stageResetRegs 4 0 with cnt := 3 }) 0 0 = some { stageResetRegs 4 0 with cnt := 3 } ∧
      delayLen 4 0 ≤ ({ stageResetRegs 4 0 with cnt := 3 } : StageRegs).cnt := by decide +kernel

/-- Stage 0 of `N = 4`, of offset 0, and stage 4 of `N = 64`, of offset 0. -/
theorem witness_StgSyncPhase1StartsAFreshBlock :
    ((stageAt (fftState 4 none) 0 0).isSome = true ∧ initOffset 4 0 < delayLen 4 0) ∧
      (stageAt (fftState 64 none) 0 4).isSome = true ∧ initOffset 64 4 < delayLen 64 4 := by decide +kernel

/-- Stage 1 of `N = 4`, of offset 1 = D, and stage 1 of `N = 64`, of offset 31 = 2D - 1. -/
theorem witness_StgSyncPhase2StartsAFreshBlock :
    ((stageAt (fftState 4 none) 0 1).isSome = true ∧ delayLen 4 1 ≤ initOffset 4 1) ∧
      (stageAt (fftState 64 none) 0 1).isSome = true ∧ delayLen 64 1 ≤ initOffset 64 1 := by decide +kernel

theorem witness_StageOperationsWriteTheirStageAlone :
    ∀ op ∈ [.stgReset 0 1, .stgHold 0 1, .stgP1 0 1, .stgP2 0 1, .stgSyncP1 0 1, .stgSyncP2 0 1],
      (nextOf (exec op State.reset)).isSome = true := by decide +kernel

/-- One state for the five FFT operations and for each clause of `out_cnt_reg`: `v[L-2]` set, and clear. -/
theorem witness_FftResetClearsTheFft : (fftAt (fft4 3 3 [true, true, true, true, true] none) 0).isSome = true := by decide +kernel

theorem witness_FftIdleFreezesTheFft : fftAt State.reset 0 = some (fftResetRegs 4) := by decide +kernel

theorem witness_FftFlushClocksThePipeline :
    ((fftAt (fft4 0 3 [false, false, false, true, false] none) 0).map (fun f => f.v.getD (latency 4 - 2) false)) = some true ∧
    ((fftAt (fft4 0 3 [false, false, false, false, true] none) 0).map (fun f => f.v.getD (latency 4 - 2) false)) = some false := by
  decide +kernel

theorem witness_FftIngestTakesASample :
    ((fftAt (fft4 3 3 [true, true, true, true, false] none) 0).map (fun f => f.v.getD (latency 4 - 2) false)) = some true ∧
    ((fftAt (fft4 3 3 [true, true, true, false, true] none) 0).map (fun f => f.v.getD (latency 4 - 2) false)) = some false := by
  decide +kernel

theorem witness_FftSyncStartsABlock : (fftAt (fft4 0 3 [false, false, false, false, false] (some (smp 1 0))) 0).isSome = true := by
  decide +kernel

theorem witness_FftOperationsWriteTheirFftAlone :
    ∀ op ∈ [.fftReset 1, .fftIdle 1, .fftFlush 1, .fftIngest 1, .fftSync 1], (nextOf (exec op State.reset)).isSome = true := by
  decide +kernel

theorem witness_DmaResetClearsTheDma : dmaAt (dmaState true 3 3 midTransfer) 0 = some midTransfer := by decide

theorem witness_DmaIdleMovesTheFlagsAlone : dmaAt (dmaState false 3 3 idleDma) 0 = some idleDma := by decide

/-- The highest address of a 4-bit port, and the lowest with no line for the core. -/
theorem witness_DmaAcceptLatchesTheTransfer :
    (dmaAt (dmaState true 15 3 idleDma) 0 = some idleDma ∧
      ((inputsOf (dmaState true 15 3 idleDma)).xfer.getD 0 ⟨0, 0#32⟩).baseAddrIn < 2 ^ 4) ∧
    dmaAt State.reset 1 = some dmaResetRegs ∧ ((inputsOf State.reset).xfer.getD 1 ⟨0, 0#32⟩).baseAddrIn < 2 ^ 12 := by decide

/-- The first sample, and the last, at the highest address. -/
theorem witness_DmaIssueDrivesTheNextAddress :
    (dmaAt (dmaState false 0 0 midTransfer) 0 = some midTransfer ∧ midTransfer.active = true ∧
      midTransfer.sampleCounter.toNat < midTransfer.numSamples.toNat) ∧
    (0xFFFFFFFE#32).toNat < (0xFFFFFFFF#32).toNat := by decide

theorem witness_DmaLoopendEndsTheIssueLoop :
    dmaAt (dmaState false 0 0 ⟨1, 8, 8, 9, 8, true, true, true, true⟩) 0 = some ⟨1, 8, 8, 9, 8, true, true, true, true⟩ := by
  decide

theorem witness_DmaDoneDropsBusy :
    dmaAt (dmaState false 0 0 ⟨1, 8, 8, 9, 8, false, true, false, true⟩) 0 = some ⟨1, 8, 8, 9, 8, false, true, false, true⟩ := by
  decide

theorem witness_DmaOperationsWriteTheirDmaAlone :
    ∀ op ∈ [.dmaReset 1, .dmaIdle 1, .dmaAccept 1, .dmaIssue 1, .dmaLoopend 1, .dmaDone 1],
      (nextOf (exec op State.reset)).isSome = true := by decide +kernel

/-- The counter at the exit bound 6 of two cores with hop 2, and 0. -/
theorem witness_SchCountAdvancesTheCounter :
    ((schedState 2 2 true ⟨true, 6⟩).cfg.Legal ∧ (schedState 2 2 true ⟨true, 6⟩).sched.staggerCounter.toNat ≤ 2 * 2 + 2) ∧
      (schedState 2 2 true ⟨true, 0⟩).sched.staggerCounter.toNat ≤ 2 * 2 + 2 := by decide

theorem witness_SchedulerOperationsWriteTheSchedulerAlone :
    ∀ op ∈ [.schReset, .schIdle, .schTrigger, .schCount, .schExit], (nextOf (exec op State.reset)).isSome = true := by
  decide +kernel

/-- The first index past the last core, and past the last stage. -/
theorem witness_OperationsOfAbsentUnitsFault :
    stageAt State.reset 0 2 = none ∧ stageAt State.reset 2 0 = none ∧ fftAt State.reset 2 = none ∧
      dmaAt State.reset 2 = none := by decide +kernel

/-- Right after reset, with every input 0, every unit holds or idles. -/
theorem witness_StepRunsTheSelectedOperations :
    State.reset.cfg.Legal ∧ ∃ (op : UnitId → Instr) (after : UnitId → State), ∀ u : UnitId, u.wf State.reset.cfg = true →
      decode u (selectOf State.reset u) = .ok (op u) ∧ exec (op u) State.reset = .next (after u) := by
  refine ⟨by decide,
    fun
      | .stage c i => .stgHold c i
      | .fft c => .fftIdle c
      | .dma c => .dmaIdle c
      | .sched => .schIdle,
    fun _ => State.reset, ?_⟩
  rintro (⟨c, i⟩ | c | c | _) hu
  · have h : c < 2 ∧ i < 2 := of_decide_eq_true hu
    obtain ⟨hc, hi⟩ := h
    interval_cases c <;> interval_cases i <;> exact ⟨rfl, rfl⟩
  · have hc : c < 2 := of_decide_eq_true hu
    interval_cases c <;> exact ⟨rfl, rfl⟩
  · have hc : c < 2 := of_decide_eq_true hu
    interval_cases c <;> exact ⟨rfl, rfl⟩
  · exact ⟨rfl, rfl⟩

/-- An idle scheduler past its exit bound, and a DMA that issues without being busy: no state reachable from reset. -/
theorem witness_StepFaultsWhereNoRowMatches :
    ((schedState 2 2 false ⟨false, 7⟩).cfg.Legal ∧
      decode .sched (selectOf (schedState 2 2 false ⟨false, 7⟩) .sched) = .error .noRow) ∧
    (dmaState false 0 0 { midTransfer with busy := false }).cfg.Legal ∧
      UnitId.wf (conf 4 4 1 0 .dmaAlone) (.dma 0) = true ∧
      decode (.dma 0) (selectOf (dmaState false 0 0 { midTransfer with busy := false }) (.dma 0)) = .error .noRow := by
  refine ⟨⟨by decide, rfl⟩, by decide, rfl, rfl⟩

theorem witness_IllegalConfigurationsAreRefused : ¬ (State.resetOf (conf 3 4 1 0 .interleaved) []).cfg.Legal := by decide

/-- Registers as after power-on, of the right shape. -/
theorem witness_ResetEdgeGivesTheResetValues :
    let s : State :=
      { setDma (fft4 9 9 [true] none) 0 ⟨77, 1, 9, 88, 99, true, true, true, false⟩ with
        trace := [Inputs.reset], sched := ⟨false, 5⟩, mem := [(3, 7)], rdata := [] }
    s.Shaped ∧ (inputsOf s).rst = true := by decide +kernel

theorem witness_ResetStateMeetsTheInvariant : (conf 2 1 1 0 .dmaAlone).Legal := by decide

theorem witness_StepKeepsTheInvariant : (dmaState true 15 4 midTransfer).Inv ∧ ∃ t, step (dmaState true 15 4 midTransfer) = .next t :=
  ⟨by decide +kernel, next_of_inv (by decide +kernel)⟩

theorem witness_SoundMachineNeverStops : State.reset.Inv := by decide +kernel

/-- A memory with one word set, and the host's write of this cycle. -/
def writeState (rst wEn : Bool) (a : Nat) : State :=
  { State.resetOf (conf 4 4 1 0 .interleaved) [{ Inputs.idle with rst := rst, wEn := wEn, wAddr := a, wData := 5 }] with
    mem := [(3, 7)] }

/-- Each clause: a reset edge, no write, and a write at the highest and the lowest address. -/
theorem witness_MemoryStepsAsItsInterfaceSays :
    ((writeState true true 0).Inv ∧ (∃ t, step (writeState true true 0) = .next t) ∧
      (inputsOf (writeState true true 0)).rst = true) ∧
    ((writeState false false 0).Inv ∧ (∃ t, step (writeState false false 0) = .next t) ∧
      (inputsOf (writeState false false 0)).rst = false ∧ (inputsOf (writeState false false 0)).wEn = false ∧
      dmaAt (writeState false false 0) 0 = some dmaResetRegs) ∧
    ((writeState false true 15).Inv ∧ (∃ t, step (writeState false true 15) = .next t) ∧
      (inputsOf (writeState false true 15)).rst = false ∧ (inputsOf (writeState false true 15)).wEn = true ∧
      (inputsOf (writeState false true 15)).wAddr < 2 ^ 4) ∧
    (writeState false true 0).Inv ∧ (inputsOf (writeState false true 0)).wAddr < 2 ^ 4 := by
  have h0 : (writeState true true 0).Inv := by decide +kernel
  have h1 : (writeState false false 0).Inv := by decide +kernel
  have h2 : (writeState false true 15).Inv := by decide +kernel
  exact ⟨⟨h0, next_of_inv h0, by decide⟩, ⟨h1, next_of_inv h1, by decide⟩, ⟨h2, next_of_inv h2, by decide⟩,
    by decide +kernel, by decide⟩

/-- The reset state with another address register in core 1. -/
def otherCore : State := setDma State.reset 1 { dmaResetRegs with memAddr := 9 }

/-- Two machines that differ in core 1 alone. -/
theorem witness_CoresAreIndependent :
    State.reset ≠ otherCore ∧ (State.reset.Inv ∧ otherCore.Inv) ∧
      ((∃ t, step State.reset = .next t) ∧ ∃ t, step otherCore = .next t) ∧
      otherCore.cfg = State.reset.cfg ∧ otherCore.sched = State.reset.sched ∧ inputsOf otherCore = inputsOf State.reset ∧
      otherCore.cycle = State.reset.cycle ∧ otherCore.cores[0]? = State.reset.cores[0]? ∧
      otherCore.rdata[0]? = State.reset.rdata[0]? ∧ otherCore.mem = State.reset.mem := by
  have h : State.reset.Inv := by decide +kernel
  have h' : otherCore.Inv := by decide +kernel
  exact ⟨by decide +kernel, ⟨h, h'⟩, ⟨next_of_inv h, next_of_inv h'⟩, by decide +kernel⟩

/-- A busy DMA with two different `start` and parameter inputs. -/
theorem witness_BusyDmaIgnoresStart :
    (dmaState true 7 9 midTransfer).cfg = (dmaState false 0 0 midTransfer).cfg ∧
      (dmaAt (dmaState false 0 0 midTransfer) 0 = some midTransfer ∧ dmaAt (dmaState true 7 9 midTransfer) 0 = some midTransfer ∧
        midTransfer.busy = true) ∧
      ((inputsOf (dmaState false 0 0 midTransfer)).rst = false ∧ (inputsOf (dmaState true 7 9 midTransfer)).rst = false) ∧
      (∃ t, step (dmaState false 0 0 midTransfer) = .next t) ∧ ∃ t, step (dmaState true 7 9 midTransfer) = .next t :=
  ⟨by decide, by decide, by decide, next_of_inv (by decide +kernel), next_of_inv (by decide +kernel)⟩

/-- Staggering with `start` 0 and 1, and Idle with `start` 1. -/
theorem witness_StaggeringSchedulerIgnoresStart :
    (((schedState 2 2 true ⟨true, 3⟩).cfg = (schedState 2 2 false ⟨true, 3⟩).cfg ∧
      (schedState 2 2 true ⟨true, 3⟩).sched = (schedState 2 2 false ⟨true, 3⟩).sched ∧
      (schedState 2 2 false ⟨true, 3⟩).sched.activeStagger = true ∧
      (inputsOf (schedState 2 2 true ⟨true, 3⟩)).rst = (inputsOf (schedState 2 2 false ⟨true, 3⟩)).rst) ∧
      (∃ t, step (schedState 2 2 false ⟨true, 3⟩) = .next t) ∧ ∃ t, step (schedState 2 2 true ⟨true, 3⟩) = .next t) ∧
    ((schedState 2 2 true ⟨false, 0⟩).cfg.wiring = .interleaved ∧ (schedState 2 2 true ⟨false, 0⟩).sched.activeStagger = false ∧
      (inputsOf (schedState 2 2 true ⟨false, 0⟩)).rst = false ∧ (inputsOf (schedState 2 2 true ⟨false, 0⟩)).start = true) ∧
      ∃ t, step (schedState 2 2 true ⟨false, 0⟩) = .next t :=
  ⟨⟨by decide, next_of_inv (by decide +kernel), next_of_inv (by decide +kernel)⟩, by decide, next_of_inv (by decide +kernel)⟩

/-- Two cores with hop 2 (`last = 8`), and three with hop 0 (`last = 4`): `k` at 1, `last` and `last + 1`. -/
theorem witness_StaggerLawHolds :
    (((schedState 2 2 true ⟨false, 0⟩).Inv ∧ (schedState 2 2 true ⟨false, 0⟩).cfg.wiring = .interleaved ∧
      (schedState 2 2 true ⟨false, 0⟩).sched.activeStagger = false ∧ (inputsOf (schedState 2 2 true ⟨false, 0⟩)).start = true ∧
      1 ≤ 1 ∧ 1 ≤ 2 * 2 + 4 + 1 ∧ 8 ≤ 2 * 2 + 4 + 1 ∧ 9 ≤ 2 * 2 + 4 + 1 ∧ 0 < 2 ∧ 1 < 2) ∧
      NoResetFor (schedState 2 2 true ⟨false, 0⟩) (2 * 2 + 4 + 1)) ∧
    ((schedState 3 0 true ⟨false, 0⟩).Inv ∧ (schedState 3 0 true ⟨false, 0⟩).cfg.wiring = .interleaved ∧
      (schedState 3 0 true ⟨false, 0⟩).sched.activeStagger = false ∧ (inputsOf (schedState 3 0 true ⟨false, 0⟩)).start = true ∧
      4 ≤ 3 * 0 + 4 + 1 ∧ 5 ≤ 3 * 0 + 4 + 1) ∧ NoResetFor (schedState 3 0 true ⟨false, 0⟩) (3 * 0 + 4 + 1) :=
  ⟨⟨by decide +kernel, no_reset_of_trace (by decide) _⟩, by decide +kernel, no_reset_of_trace (by decide) _⟩

/-- Transfers of 0, 1 and 2 words from the highest address: `k` at 1 and `n + 3`, `j` at 0 and `n - 1`. -/
theorem witness_DmaTimingLawHolds :
    ∀ n ∈ [0, 1, 2], ((dmaState true 15 n idleDma).Inv ∧ dmaAt (dmaState true 15 n idleDma) 0 = some idleDma ∧
      idleDma.busy = false ∧ dmaStart (dmaState true 15 n idleDma) 0 = true ∧
      (numSamplesIn (dmaState true 15 n idleDma) 0).toNat = n ∧ baseAddrIn (dmaState true 15 n idleDma) 0 = 15 ∧
      1 ≤ n + 3 ∧ (n = 0 ∨ n - 1 < n)) ∧ NoResetFor (dmaState true 15 n idleDma) (n + 3) := by
  have h : ∀ n ∈ [0, 1, 2], ((dmaState true 15 n idleDma).Inv ∧ dmaAt (dmaState true 15 n idleDma) 0 = some idleDma ∧
      idleDma.busy = false ∧ dmaStart (dmaState true 15 n idleDma) 0 = true ∧
      (numSamplesIn (dmaState true 15 n idleDma) 0).toNat = n ∧ baseAddrIn (dmaState true 15 n idleDma) 0 = 15 ∧
      1 ≤ n + 3 ∧ (n = 0 ∨ n - 1 < n)) := by decide +kernel
  exact fun n hn => ⟨h n hn, no_reset_of_trace (fun _ hx => by rw [List.mem_singleton.mp hx]; rfl) (n + 3)⟩

theorem witness_QuiescentMachineStaysAsItIs :
    let s : State := { setDma State.reset 1 { idleDma with memAddr := 3 } with mem := [(3, 7)] }
    (s.Inv ∧ s.Quiescent) ∧ (inputsOf s).rst = false ∧ (inputsOf s).start = false ∧ (inputsOf s).inValid = false ∧
      (inputsOf s).wEn = false ∧ (dmaAt s 1).isSome = true := by decide +kernel

/-- With the tail of `v` set, and clear. -/
theorem witness_OutputsOfACore :
    let s := fft4 3 3 [false, true, true, true, true] none
    let s' := fft4 3 3 [false, true, true, true, false] (some (smp 1 1))
    ((dmaAt s 0).isSome = true ∧ (fftAt s 0).isSome = true ∧ (stageAt s 0 (numStages 4 - 1)).isSome = true) ∧
      (dmaAt s' 0).isSome = true ∧ (fftAt s' 0).isSome = true ∧ (stageAt s' 0 (numStages 4 - 1)).isSome = true := by
  decide +kernel

theorem witness_StageOperationsAgreeWithTheirFft :
    let s := fft4 0 3 [false, false, false, false, false] (some (smp 1 0))
    (stageAt s 0 1).isSome = true ∧ (nextOf (runUnit s (.fft 0))).isSome = true ∧
      (nextOf (runUnit s (.stage 0 1))).isSome = true := by decide +kernel

/-- The reset state with another output register, word of memory and read port. -/
def otherSamples : State :=
  { setStage State.reset 0 1 { stageResetRegs 4 1 with out := smp 3 4 } with mem := [(3, 7)], rdata := [0#64, 7#64] }

/-- Two machines that differ in sample values alone. -/
theorem witness_ControlIgnoresSampleValues :
    State.reset ≠ otherSamples ∧ (State.reset.Inv ∧ otherSamples.Inv) ∧ forgetSamples State.reset = forgetSamples otherSamples ∧
      (∃ t, step State.reset = .next t) ∧ ∃ t, step otherSamples = .next t := by
  have h : State.reset.Inv := by decide +kernel
  have h' : otherSamples.Inv := by decide +kernel
  exact ⟨by decide +kernel, ⟨h, h'⟩, by decide +kernel, next_of_inv h, next_of_inv h'⟩

theorem witness_DerivedConstantsAlign :
    ((conf 2 1 1 0 .interleaved).Legal ∧ 0 < numStages 2) ∧ (conf 1024 1 1 0 .interleaved).Legal ∧ 9 < numStages 1024 := by
  decide +kernel

/-- `p` at the ends of each clause: 0 and 1 for the sums of stage 0 of `N = 4`, 2 and 3 for its differences. -/
theorem witness_StageDelayLawHolds :
    (conf 4 1 1 0 .interleaved).Legal ∧ 0 < numStages 4 ∧ StageOk 4 0 (stageResetRegs 4 0) ∧ (stageResetRegs 4 0).cnt = 0 ∧
      (0 < delayLen 4 0 ∧ 1 < delayLen 4 0) ∧ ¬ 2 < delayLen 4 0 ∧ 3 < stageSize 4 0 := by decide +kernel

/-- A standalone FFT with the four samples of a block on its port in the next four cycles. -/
def blockState : State :=
  State.resetOf (conf 4 4 1 0 .fftAlone) (List.replicate 4 { Inputs.idle with inValid := true, inData := smp 1 0 })

/-- The samples of the block are presented in its cycles. -/
theorem block_is_presented : ∀ j t, j < blockState.cfg.n → StateAt blockState j t → inValidOf t 0 = true := by
  intro j t hj ht
  have s0 : step blockState = .next (stateNext blockState) := step_of_inv (by decide +kernel)
  have s1 : step (stateNext blockState) = .next (stateNext (stateNext blockState)) := step_of_inv (by decide +kernel)
  have s2 := step_of_inv (s := stateNext (stateNext blockState)) (by decide +kernel)
  obtain rfl | rfl | rfl | rfl : j = 0 ∨ j = 1 ∨ j = 2 ∨ j = 3 := by simp [blockState, State.resetOf, conf] at hj; omega
  · rw [stateAt_unique ht (stateAt_zero _)]; rfl
  · rw [stateAt_unique ((stateAt_succ s0).mp ht) (stateAt_zero _)]; rfl
  · rw [stateAt_unique ((stateAt_succ s1).mp ((stateAt_succ s0).mp ht)) (stateAt_zero _)]; rfl
  · rw [stateAt_unique ((stateAt_succ s2).mp ((stateAt_succ s1).mp ((stateAt_succ s0).mp ht))) (stateAt_zero _)]; rfl

/-- `k` at 1, `L - 1 = 4`, `L = 5` and `L + N - 1 = 8`. -/
theorem witness_LatencyLawHolds :
    (blockState.Inv ∧ 0 < blockState.cfg.numCores ∧ syncOf blockState 0 = true ∧ latency blockState.cfg.n = 5 ∧
      1 ≤ 1 ∧ 4 < 5 + blockState.cfg.n ∧ 5 < 5 + blockState.cfg.n ∧ 8 < 5 + blockState.cfg.n) ∧
      (∀ j t, j < blockState.cfg.n → StateAt blockState j t → inValidOf t 0 = true) ∧
      NoResetFor blockState (5 + blockState.cfg.n) :=
  ⟨by decide +kernel, block_is_presented, no_reset_of_trace (by decide) _⟩

/-- The greatest finite value, and a component -0.0. -/
theorem witness_AddingZeroKeepsASample :
    fIsFinite 0x7FEFFFFFFFFFFFFF = true ∧ fIsFinite 0x8000000000000000 = true := by decide

theorem witness_SubtractingItselfGivesZero :
    fIsFinite 0xFFEFFFFFFFFFFFFF = true ∧ fIsFinite 0x0000000000000001 = true := by decide

/-- `3/2`, a tie between 1 and 2 of the least unit, and a value below the overflow threshold. -/
theorem witness_RoundingIsToNearestEven :
    fIsFinite 0x0000000000000001 = true ∧ roundBits 3 1 < infBits ∧ fIsFinite 0x7FEFFFFFFFFFFFFF = true ∧
      roundBits ((2 ^ 53 - 1) * 2 ^ 2045) 0 < infBits := by decide +kernel

/-- `0.1 + 0.2` and `0.1 * 0.2`, and the greatest finite value minus itself. -/
theorem witness_SumsAndProductsAreNearest :
    (fIsFinite 0x3FB999999999999A = true ∧ fIsFinite 0x3FC999999999999A = true ∧ fIsFinite 0x3FD3333333333333 = true ∧
      fIsFinite (fadd 0 0x3FB999999999999A 0x3FC999999999999A) = true ∧
      fIsFinite (fmul 0 0x3FB999999999999A 0x3FC999999999999A) = true) ∧
    fIsFinite 0x7FEFFFFFFFFFFFFF = true ∧ fIsFinite 0xFFEFFFFFFFFFFFFF = true ∧
      fIsFinite (fadd 0 0x7FEFFFFFFFFFFFFF 0xFFEFFFFFFFFFFFFF) = true := by decide +kernel

theorem witness_DrawnNaNsAreTheNaNs : fIsNaN 0x7FF8000000000000 = true ∧ fIsNaN 0xFFF0000000000001 = true := by decide

end Sys2Proof.Tests
end

/-! PROOFS of the memory family: the edge with `rst = 1` (O38) and the step of the memory and of the read ports (O42). -/

namespace Sys2Proof.Machine

/-! ### The edge with `rst = 1` (70_reset_and_hazards.md R240, R243) -/

/-- The machine after an edge with `rst = 1`: the reset state of its configuration, with the inputs and the count of edges moved on. -/
def afterReset (s : State) : State := { State.resetOf s.cfg s.trace.tail with cycle := s.cycle + 1 }

theorem afterReset_core {s : State} {c : Nat} (hc : c < s.cfg.numCores) :
    (afterReset s).cores[c]? = some { dma := dmaResetRegs, fft := fftResetRegs s.cfg.n } := by
  simp [afterReset, State.resetOf, hc]

theorem fftResetRegs_stages_getElem? {n i : Nat} (hi : i < numStages n) :
    (fftResetRegs n).stages[i]? = some (stageResetRegs n i) := by
  simp [fftResetRegs, hi]

/-- FFT.RESET on an FFT that has its `K` stages, whatever they hold. -/
theorem fftReset_eq_fftResetRegs {c : Nat} {s : State} {f : FftRegs} (hk : f.stages.length = numStages s.cfg.n) :
    fftReset c s f = fftResetRegs s.cfg.n := by
  have hst : allStages c s stageReset f.stages = (fftResetRegs s.cfg.n).stages :=
    List.ext_getElem (by simp [fftResetRegs, hk]) fun i _ _ => by
      simp [allStages, fftResetRegs, stageReset, stageEnv]
  rw [fftReset, hst]
  rfl

theorem nextSched_of_reset {s : State} (hr : (inputsOf s).rst = true) : nextSched s = .next schedResetRegs := by
  rw [nextSched, runUnit, decode_selectOf_reset hr]
  rfl

theorem nextDma_of_reset {s : State} {c : Nat} {d : DmaRegs} (hr : (inputsOf s).rst = true) (h : dmaAt s c = some d) :
    nextDma s c = .next dmaResetRegs := by
  rw [nextDma, runUnit, decode_selectOf_reset hr]
  simp [exec, execDmaReset, onDma_some h, h, regsOr, dmaReset]

theorem nextFft_of_reset {s : State} {c : Nat} {f : FftRegs} (hr : (inputsOf s).rst = true) (h : fftAt s c = some f)
    (hk : f.stages.length = numStages s.cfg.n) : nextFft s c = .next (fftResetRegs s.cfg.n) := by
  rw [nextFft_eq h hk, fftNextRegs, if_pos hr, fftReset_eq_fftResetRegs hk]

theorem nextCore_of_reset {s : State} {c : Nat} {k : CoreRegs} (hr : (inputsOf s).rst = true) (h : s.cores[c]? = some k)
    (hk : k.fft.stages.length = numStages s.cfg.n) :
    nextCore s c = .next { dma := dmaResetRegs, fft := fftResetRegs s.cfg.n } := by
  simp [nextCore, nextDma_of_reset hr (dmaAt_of_core h), nextFft_of_reset hr (fftAt_of_core h) hk]

theorem memNext_of_reset {s : State} (hr : (inputsOf s).rst = true) : memNext s = memResetCells := if_pos hr

theorem rdataNext_of_reset {s : State} (hr : (inputsOf s).rst = true) : rdataNext s = rdataResetRegs s.cores.length := if_pos hr

/-- One edge with `rst = 1` resets the whole machine, whatever its registers hold: every select word is a RESET row, so no row can
fail to match. -/
theorem step_of_reset {s : State} (hs : s.Shaped) (hr : (inputsOf s).rst = true) : step s = .next (afterReset s) := by
  obtain ⟨hl, hc, hk⟩ := hs
  have hg : gather (nextCore s) (List.range s.cfg.numCores) = .next (afterReset s).cores :=
    gather_range_eq_next.mpr ⟨by simp [afterReset, State.resetOf], fun c hlt =>
      have hlt' : c < s.cores.length := by omega
      ⟨_, afterReset_core hlt, nextCore_of_reset hr (List.getElem?_eq_getElem hlt') (hk _ (List.getElem_mem hlt'))⟩⟩
  rw [step, show configRefusal s.cfg = none from hl]
  simp only [tick, nextSched_of_reset hr, hg, andThen_next, memNext_of_reset hr, rdataNext_of_reset hr, hc]
  rfl

/-- Settles O38: the state the edge leads to is `afterReset`, whose registers are read off unit by unit. -/
theorem resetEdgeGivesTheResetValues : Obligations.ResetEdgeGivesTheResetValues := by
  unfold Obligations.ResetEdgeGivesTheResetValues
  intro s hs hr
  refine ⟨afterReset s, step_of_reset hs hr, rfl, rfl, List.length_replicate, fun c hc => ?_, memRead_reset⟩
  have hf : fftAt (afterReset s) c = some (fftResetRegs s.cfg.n) := fftAt_of_core (afterReset_core hc)
  refine ⟨dmaAt_of_core (afterReset_core hc), ⟨_, hf, rfl, rfl, rfl, rfl, by simp [fftResetRegs]⟩, fun i hi => ?_, ?_⟩
  · exact stageAt_eq_some.mpr ⟨_, hf, fftResetRegs_stages_getElem? hi⟩
  · simp [afterReset, State.resetOf, rdataResetRegs, hc]

/-! ### The memory and the read ports at an edge (20_memory.md R52 to R55) -/

/-- Each read port loads the pre-edge word at the address on its bus (R52, R54). -/
theorem rdataNext_getElem? {s : State} {c : Nat} {d : DmaRegs} (hr : (inputsOf s).rst = false) (hd : dmaAt s c = some d) :
    (rdataNext s)[c]? = some (memRead s.mem d.memAddr) := by
  obtain ⟨k, hk, rfl⟩ := dmaAt_eq_some.mp hd
  simp [rdataNext, hr, hk, portRead]

theorem memNext_of_no_write {s : State} (hr : (inputsOf s).rst = false) (hw : (inputsOf s).wEn = false) :
    memNext s = s.mem := by
  simp [memNext, hr, hw]

/-- `MemWrite` at an address of the memory (R53): the address needs no wrapping, and its word alone changes. -/
theorem memRead_memNext_of_write {s : State} (hm : Memory.wf s.mem = true) (hr : (inputsOf s).rst = false)
    (hw : (inputsOf s).wEn = true) (ha : (inputsOf s).wAddr < 2 ^ s.cfg.aw) (a : Nat) :
    memRead (memNext s) a = if a = (inputsOf s).wAddr then (inputsOf s).wData else memRead s.mem a := by
  have hwrap : wrapAddr s.cfg (inputsOf s).wAddr = (inputsOf s).wAddr := Nat.mod_eq_of_lt ha
  simp [memNext, hr, hw, hwrap, memRead_memWrite hm]

/-- Settles O42: a step commits `memNext` and `rdataNext`, whose clauses are those of R52 to R55. -/
theorem memoryStepsAsItsInterfaceSays : Obligations.MemoryStepsAsItsInterfaceSays := by
  unfold Obligations.MemoryStepsAsItsInterfaceSays
  intro s t hi h
  obtain ⟨-, -, -, -, hmem, hrdata, -, -⟩ := tick_next (step_next_legal h).2
  obtain ⟨-, -, hlen, -, ⟨hwf, -⟩, -⟩ := hi
  rw [hmem, hrdata]
  refine ⟨fun hr => ⟨fun a => ?_, fun c hc => ?_⟩, fun hr => ⟨fun c d hd => ?_, fun hw => ?_, fun hw ha a => ?_⟩⟩
  · rw [memNext_of_reset hr, memRead_reset]
  · simp [rdataNext_of_reset hr, rdataResetRegs, hlen, hc]
  · exact rdataNext_getElem? hr hd
  · exact memNext_of_no_write hr hw
  · exact memRead_memNext_of_write hwf hr hw ha a

end Sys2Proof.Machine

/-! PROOFS of the encoding family: the `rst` bit of the select words (O5) and the configurations a step refuses (O37). -/

namespace Sys2Proof.Machine

/-! ### `rst` is the most significant bit of every select word (30_encoding.md R83) -/

/-- The leftmost bit of the four that make a Stage, FFT or scheduler select word. -/
theorem msb_of_four_bits (a b c d : Bool) :
    (BitVec.ofBool a ++ BitVec.ofBool b ++ BitVec.ofBool c ++ BitVec.ofBool d).msb = a := by
  rw [BitVec.msb_append, BitVec.msb_append, BitVec.msb_append]
  simp

@[simp] theorem stageSelect_msb (rst enable sync ph2 : Bool) : (stageSelect rst enable sync ph2).msb = rst :=
  msb_of_four_bits rst enable sync ph2

@[simp] theorem fftSelect_msb (rst enable inValid stageSync : Bool) : (fftSelect rst enable inValid stageSync).msb = rst :=
  msb_of_four_bits rst enable inValid stageSync

@[simp] theorem schedSelect_msb (rst activeStagger start exceed : Bool) :
    (schedSelect rst activeStagger start exceed).msb = rst :=
  msb_of_four_bits rst activeStagger start exceed

@[simp] theorem dmaSelect_msb (rst busy start active issue : Bool) : (dmaSelect rst busy start active issue).msb = rst :=
  (BitVec.msb_append (y := BitVec.ofBool issue)).trans (msb_of_four_bits rst busy start active)

/-- Padding a select word to a byte leaves its most significant bit where it is. -/
theorem setWidth_getLsbD_last {w : Nat} (x : BitVec w) (hw : w ≤ 8) : (x.setWidth 8).getLsbD (w - 1) = x.msb := by
  rw [BitVec.getLsbD_setWidth, decide_eq_true (by omega), Bool.true_and, BitVec.msb_eq_getLsbD_last]

theorem selectOf_getLsbD_top (s : State) (u : UnitId) :
    (selectOf s u).getLsbD (selectWidth u - 1) = (inputsOf s).rst := by
  cases u with
  | stage c i => exact (setWidth_getLsbD_last _ (by decide)).trans (stageSelect_msb ..)
  | fft c => exact (setWidth_getLsbD_last _ (by decide)).trans (fftSelect_msb ..)
  | dma c => exact (setWidth_getLsbD_last _ (by decide)).trans (dmaSelect_msb ..)
  | sched => exact (setWidth_getLsbD_last _ (by decide)).trans (schedSelect_msb ..)

/-- Settles O5: the top bit is `rst`, and `decode_selectOf_reset` reads the RESET row that it selects. -/
theorem resetTakesPriorityInEverySelectWord : Obligations.ResetTakesPriorityInEverySelectWord := by
  unfold Obligations.ResetTakesPriorityInEverySelectWord
  exact fun s u => ⟨selectOf_getLsbD_top s u, fun hr => decode_selectOf_reset hr u⟩

/-! ### The legal configurations (30_encoding.md R71) -/

/-- The model's test for a power of two: a number is one exactly when it is 2 to its own logarithm. -/
theorem eq_two_pow_log2_iff {n : Nat} : n = 2 ^ n.log2 ↔ ∃ k, n = 2 ^ k := by
  constructor
  · exact fun h => ⟨n.log2, h⟩
  · rintro ⟨k, rfl⟩
    rw [Nat.log2_two_pow]

/-- `HOP_SIZE` itself, where it is not negative. -/
theorem hop_cast {p : Params} (h : 0 ≤ p.hopSize) : (hop p : Int) = p.hopSize := Int.toNat_of_nonneg h

/-- The bound on `stagger_counter`, whether `HOP_SIZE` is read as an integer or as a count of cycles. -/
theorem counterBound_iff {p : Params} (h : 0 ≤ p.hopSize) :
    (p.numCores : Int) * p.hopSize + 3 ≤ 2 ^ 32 - 1 ↔ p.numCores * hop p + 3 ≤ 2 ^ 32 - 1 := by
  rw [← hop_cast h, ← Nat.cast_mul]
  omega

/-- The converse of `legal_facts`: no check of `configRefusal` fires where every bound holds. -/
theorem legal_of_facts {p : Params} (hpow : p.n = 2 ^ p.n.log2) (hlo : 2 ≤ p.n) (hhi : p.n ≤ 2 ^ 31) (haw : 1 ≤ p.aw)
    (hdw : p.dw = 64) (hcores : 1 ≤ p.numCores) (hhop : 0 ≤ p.hopSize) (hcnt : p.numCores * hop p + 3 ≤ 2 ^ 32 - 1) :
    p.Legal := by
  rw [Params.Legal, configRefusal, if_neg (not_not.mpr hpow), if_neg hlo.not_gt, if_neg hhi.not_gt, if_neg (by omega),
    if_neg (not_not.mpr hdw), if_neg (by omega), if_neg hhop.not_gt, if_neg hcnt.not_gt]

theorem legal_iff (p : Params) : p.Legal ↔
    (∃ k, p.n = 2 ^ k) ∧ 2 ≤ p.n ∧ p.n ≤ 2 ^ 31 ∧ 1 ≤ p.aw ∧ p.dw = 64 ∧ 1 ≤ p.numCores ∧ 0 ≤ p.hopSize ∧
      (p.numCores : Int) * p.hopSize + 3 ≤ 2 ^ 32 - 1 := by
  constructor
  · intro h
    obtain ⟨hpow, hlo, hhi, haw, hdw, hcores, hhop, hcnt⟩ := legal_facts h
    exact ⟨⟨_, hpow⟩, hlo, hhi, Nat.pos_of_ne_zero haw, hdw, Nat.pos_of_ne_zero hcores, hhop, (counterBound_iff hhop).mpr hcnt⟩
  · rintro ⟨hpow, hlo, hhi, haw, hdw, hcores, hhop, hcnt⟩
    exact legal_of_facts (eq_two_pow_log2_iff.mpr hpow) hlo hhi haw hdw hcores hhop ((counterBound_iff hhop).mp hcnt)

/-- No step is taken in a configuration that is refused (60_exceptions.md R221). -/
theorem step_of_configRefusal {s : State} {reason : ConfigReason} (h : configRefusal s.cfg = some reason) :
    step s = .refused (.illegalConfig reason) := by
  rw [step, h]

/-- Settles O37: the legal configurations are those of `legal_iff`, and a step in any other answers the reason found first. -/
theorem illegalConfigurationsAreRefused : Obligations.IllegalConfigurationsAreRefused := by
  unfold Obligations.IllegalConfigurationsAreRefused
  refine ⟨legal_iff, fun s hs => ?_⟩
  obtain ⟨reason, hreason⟩ := Option.ne_none_iff_exists'.mp hs
  exact ⟨reason, hreason, step_of_configRefusal hreason⟩

end Sys2Proof.Machine

/-! PROOFS of the Stage family: the words of each operation, and STG.RESET (O8), STG.HOLD (O9), STG.P1 (O10), STG.SYNC.P1 (O12). -/

namespace Sys2Proof.Machine

/-! ### The words of an operation are those of its row (30_encoding.md R76, R78 to R81) -/

/-- Two rows whose patterns differ on a bit that both compare: no word can match both. -/
def RowsDiffer (a b : Row) : Prop := a.mask &&& b.mask &&& (a.pattern ^^^ b.pattern) ≠ 0

theorem RowsDiffer.not_both {a b : Row} (h : RowsDiffer a b) {w : BitVec 8} (ha : rowMatches w a.mask a.pattern = true) :
    rowMatches w b.mask b.pattern = false := by
  refine Bool.eq_false_iff.mpr fun hb => h ?_
  rw [← beq_iff_eq.mp ha, ← beq_iff_eq.mp hb]
  ext j hj
  cases hw : w[j] <;> simp +contextual [hw]

/-- Within one operation map every two rows differ. -/
theorem rowsOf_pairwise (u : UnitId) : (rowsOf u).Pairwise RowsDiffer := by
  cases u <;> simp [rowsOf, stageRows, fftRows, dmaRows, schedRows, RowsDiffer]

/-- In a map whose rows differ, the row found is the one that matches, wherever it stands. -/
theorem findRow_eq_some_iff {w : BitVec 8} {i : Instr} {rows : List Row} (h : rows.Pairwise RowsDiffer) :
    findRow w rows = some i ↔ ∃ r ∈ rows, r.instr = i ∧ rowMatches w r.mask r.pattern = true := by
  induction rows with
  | nil => simp [findRow]
  | cons a rows ih =>
    obtain ⟨hhead, htail⟩ := List.pairwise_cons.mp h
    cases ha : rowMatches w a.mask a.pattern with
    | true =>
      have hrest : ∀ r ∈ rows, rowMatches w r.mask r.pattern = false := fun r hr => (hhead r hr).not_both ha
      simp +contextual [findRow, ha, hrest]
    | false => simp [findRow, ha, ih htail]

/-- The operation maps and the mask and match columns say the same: an operation has one row, in the map of its unit. -/
theorem mem_rowsOf_iff {i : Instr} {r : Row} :
    r ∈ rowsOf (unitOf i) ∧ r.instr = i ↔ r = ⟨maskOf i, matchOf i, i⟩ := by
  obtain ⟨m, p, j⟩ := r
  cases i <;> simp [unitOf, rowsOf, stageRows, fftRows, dmaRows, schedRows, maskOf, matchOf] <;> grind

/-- The words of its unit that decode to an operation are those that its row's mask and match columns give. -/
theorem encodedAs_row (i : Instr) : EncodedAs (unitOf i) i (maskOf i) (matchOf i) := by
  intro w hw
  have hfind : decode (unitOf i) w = .ok i ↔ findRow w (rowsOf (unitOf i)) = some i := by
    rw [decode, if_neg hw.not_ge]
    cases findRow w (rowsOf (unitOf i)) <;> simp
  rw [hfind, findRow_eq_some_iff (rowsOf_pairwise _)]
  simp only [← and_assoc, mem_rowsOf_iff, exists_eq_left]
  exact beq_iff_eq

/-! ### A Stage operation on the stage it is addressed to (41_stage.md R112 to R119) -/

/-- A Stage operation on a stage the machine has completes, and the stage holds what the operation makes of its registers. -/
theorem onStage_completes {c i : Nat} {s : State} {r : StageRegs} (h : stageAt s c i = some r)
    (op : StageEnv → StageRegs → StageRegs) :
    ∃ t, onStage c i s op = .next t ∧ stageAt t c i = some (op (stageEnv s c i) r) :=
  ⟨_, onStage_some h op, by rw [stageAt_setStage, h, Option.map_some]⟩

/-- Stage 0 has no stage before it, so its count starts at 0 (00_scope.md R7). -/
theorem initOffset_zero (n : Nat) : initOffset n 0 = 0 := by
  simp [initOffset, cumLatency]

/-- Phase 1 right after the buffers are cleared: what it emits is `ZERO` and what it stores is the only element that can differ
from `ZERO` (41_stage.md R118). -/
theorem stageSyncP1_eq {e : StageEnv} (h : envOffset e < envHalf e) (r : StageRegs) :
    stageSyncP1 e r =
      { cnt := (envOffset e + 1) % envSize e
        bufIn := (clearBuf (envHalf e)).set (envOffset e) e.x
        bufOut := clearBuf (envHalf e)
        out := Sample.zero } := by
  have hout : (clearBuf (envHalf e)).getD (envOffset e) Sample.zero = Sample.zero := List.getD_replicate _ h
  rw [stageSyncP1, phase1, syncClear, hout]

/-- Settles O8: STG.RESET leaves its stage the registers of `stageResetRegs`, whatever it held. -/
theorem stgResetReturnsToOffset : Obligations.StgResetReturnsToOffset := by
  unfold Obligations.StgResetReturnsToOffset
  exact fun c i s r h => ⟨encodedAs_row (.stgReset c i), onStage_completes h stageReset⟩

/-- Settles O9: STG.HOLD gives its stage back the registers it held. -/
theorem stgHoldFreezesTheStage : Obligations.StgHoldFreezesTheStage := by
  unfold Obligations.StgHoldFreezesTheStage
  exact fun c i s r h => ⟨encodedAs_row (.stgHold c i), onStage_completes h stageHold⟩

/-- Settles O10: STG.P1 is `phase1` on its stage; it does what the statement says at every count, so `cnt < D_i` is not used. -/
theorem stgPhase1StoresAndEmits : Obligations.StgPhase1StoresAndEmits := by
  unfold Obligations.StgPhase1StoresAndEmits
  exact fun c i s r h _ => ⟨encodedAs_row (.stgP1 c i), onStage_completes h phase1⟩

/-- Settles O12: STG.SYNC.P1 is `phase1` on cleared registers, which `stageSyncP1_eq` writes out; stage 0 starts at 0. -/
theorem stgSyncPhase1StartsAFreshBlock : Obligations.StgSyncPhase1StartsAFreshBlock := by
  unfold Obligations.StgSyncPhase1StartsAFreshBlock
  intro c i s r h hoff
  obtain ⟨t, ht, hr⟩ := onStage_completes h stageSyncP1
  rw [stageSyncP1_eq (e := stageEnv s c i) hoff] at hr
  exact ⟨encodedAs_row (.stgSyncP1 c i), t, ht, hr, initOffset_zero s.cfg.n⟩

end Sys2Proof.Machine

/-! PROOFS of the FFT family: the five FFT operations with the Stage operations they imply (O15 to O19), the signals of the select
words (O6) and the outputs of a core (O49). -/

namespace Sys2Proof.Machine

/-! ### An FFT operation on the FFT it is addressed to (42_fft.md R136 to R144) -/

/-- The model's shift is the shift of R141, for a register of any length. -/
theorem shifted_shiftIn (b : Bool) (v : List Bool) : Shifted b v (shiftIn b v) := by
  refine ⟨shiftIn_length b v, fun j hj => ?_⟩
  cases j with
  | zero => rw [if_pos rfl, shiftIn_getD_zero b hj]
  | succ j => rw [if_neg j.succ_ne_zero, shiftIn_getD_succ b hj, Nat.add_sub_cancel]

/-- The Stage operation of an enabled edge without sync, by the stage's count (30_encoding.md R77). -/
theorem exec_phaseByCount {c i : Nat} {s : State} {r : StageRegs} (h : stageAt s c i = some r) :
    exec (if delayLen s.cfg.n i ≤ r.cnt then .stgP2 c i else .stgP1 c i) s =
      .next (setStage s c i (phaseByCount (stageEnv s c i) r)) := by
  have hph2 : stagePh2 (stageEnv s c i).n (stageEnv s c i).stage false r = decide (delayLen s.cfg.n i ≤ r.cnt) := rfl
  rw [phaseByCount, hph2]
  by_cases hcnt : delayLen s.cfg.n i ≤ r.cnt
  · rw [if_pos hcnt, if_pos (decide_eq_true hcnt)]
    exact onStage_some h phase2
  · rw [if_neg hcnt, if_neg (by simpa using hcnt)]
    exact onStage_some h phase1

/-- The Stage operation of a sync edge, by the stage's offset (30_encoding.md R77). -/
theorem exec_syncByOffset {c i : Nat} {s : State} {r : StageRegs} (h : stageAt s c i = some r) :
    exec (if delayLen s.cfg.n i ≤ initOffset s.cfg.n i then .stgSyncP2 c i else .stgSyncP1 c i) s =
      .next (setStage s c i (syncByOffset (stageEnv s c i) r)) := by
  have hph2 : stagePh2 (stageEnv s c i).n (stageEnv s c i).stage true r =
      decide (delayLen s.cfg.n i ≤ initOffset s.cfg.n i) := rfl
  rw [syncByOffset, hph2]
  by_cases hoff : delayLen s.cfg.n i ≤ initOffset s.cfg.n i
  · rw [if_pos hoff, if_pos (decide_eq_true hoff)]
    exact onStage_some h stageSyncP2
  · rw [if_neg hoff, if_neg (by simpa using hoff)]
    exact onStage_some h stageSyncP1

/-- An FFT operation on an FFT the machine has completes. Where it does `stageOp` to every stage, its stages are as the Stage
operations that `instr` names leave them, performed one by one. -/
theorem onFft_completes {c : Nat} {s : State} {f : FftRegs} (h : fftAt s c = some f) {op : FftRegs → FftRegs}
    {stageOp : StageEnv → StageRegs → StageRegs} {instr : Nat → StageRegs → Instr}
    (hstages : (op f).stages = allStages c s stageOp f.stages)
    (hinstr : ∀ i r, stageAt s c i = some r → exec (instr i r) s = .next (setStage s c i (stageOp (stageEnv s c i) r))) :
    ∃ t, onFft c s op = .next t ∧ fftAt t c = some (op f) ∧ (op f).stages.length = f.stages.length ∧
      StagesPerform instr c s t := by
  have hfft : fftAt (setFft s c (op f)) c = some (op f) := by rw [fftAt_setFft, h, Option.map_some]
  refine ⟨_, onFft_some h op, hfft, by rw [hstages, allStages_length], fun i r hr => ⟨_, hinstr i r hr, ?_⟩⟩
  obtain ⟨g, hg, hgi⟩ := stageAt_eq_some.mp hr
  obtain rfl : f = g := Option.some.inj (h.symm.trans hg)
  have hfftStage : stageAt (setFft s c (op f)) c i = some (stageOp (stageEnv s c i) r) :=
    stageAt_eq_some.mpr ⟨_, hfft, by rw [hstages, allStages_getElem?, hgi, Option.map_some]⟩
  rw [hfftStage, stageAt_setStage, hr, Option.map_some]

/-- STG.HOLD on every stage and no other write: FFT.IDLE gives the FFT back the registers it held (R137). -/
theorem fftIdle_eq (c : Nat) (s : State) (f : FftRegs) : fftIdle c s f = f := by
  have hst : allStages c s stageHold f.stages = f.stages :=
    List.ext_getElem? fun i => by rw [allStages_getElem?]; exact Option.map_id'
  rw [fftIdle, hst]

/-- Settles O17: FFT.FLUSH is `fftFlush` on the FFT, and each stage's phase is chosen by its count. -/
theorem fftFlushClocksThePipeline : Obligations.FftFlushClocksThePipeline := by
  unfold Obligations.FftFlushClocksThePipeline
  intro c s f h
  obtain ⟨t, ht, hf, hlen, hst⟩ := onFft_completes h (op := fftFlush c s) rfl fun _ _ => exec_phaseByCount
  have hcnt : (f.internalCnt + 1#32).toNat = (f.internalCnt.toNat + 1) % 2 ^ 32 := BitVec.toNat_add ..
  exact ⟨encodedAs_row (.fftFlush c), t, _, ht, hf, shifted_shiftIn false f.v, rfl, rfl, hcnt, hlen, hst⟩

/-- Settles O18: FFT.INGEST is `fftIngest` on the FFT, and each stage's phase is chosen by its count. -/
theorem fftIngestTakesASample : Obligations.FftIngestTakesASample := by
  unfold Obligations.FftIngestTakesASample
  intro c s f h
  obtain ⟨t, ht, hf, hlen, hst⟩ := onFft_completes h (op := fftIngest c s) rfl fun _ _ => exec_phaseByCount
  have hcnt : (f.internalCnt + 1#32).toNat = (f.internalCnt.toNat + 1) % 2 ^ 32 := BitVec.toNat_add ..
  exact ⟨encodedAs_row (.fftIngest c), t, _, ht, hf, shifted_shiftIn true f.v, rfl, rfl, hcnt, hlen, hst⟩

/-- Settles O19: FFT.SYNC is `fftSync` on the FFT, and each stage's SYNC phase is chosen by its offset. -/
theorem fftSyncStartsABlock : Obligations.FftSyncStartsABlock := by
  unfold Obligations.FftSyncStartsABlock
  intro c s f h
  obtain ⟨t, ht, hf, hlen, hst⟩ := onFft_completes h (op := fftSync c s) rfl fun _ _ => exec_syncByOffset
  have hcnt : (f.internalCnt + 1#32).toNat = (f.internalCnt.toNat + 1) % 2 ^ 32 := BitVec.toNat_add ..
  exact ⟨encodedAs_row (.fftSync c), t, _, ht, hf, shifted_shiftIn true f.v, rfl, rfl, hcnt, hlen, hst⟩

/-- Settles O15: FFT.RESET is `fftReset` on the FFT, whatever it held, with STG.RESET on every stage. -/
theorem fftResetClearsTheFft : Obligations.FftResetClearsTheFft := by
  unfold Obligations.FftResetClearsTheFft
  intro c s f h
  obtain ⟨t, ht, hf, hlen, hst⟩ := onFft_completes h (op := fftReset c s) (instr := fun i _ => .stgReset c i) rfl
    fun _ _ hr => onStage_some hr stageReset
  exact ⟨encodedAs_row (.fftReset c), t, _, ht, hf, rfl, rfl, rfl, rfl, hlen, hst⟩

/-- Settles O16: FFT.IDLE is `fftIdle` on the FFT, which `fftIdle_eq` says writes nothing, with STG.HOLD on every stage. -/
theorem fftIdleFreezesTheFft : Obligations.FftIdleFreezesTheFft := by
  unfold Obligations.FftIdleFreezesTheFft
  intro c s f h
  obtain ⟨t, ht, hf, -, hst⟩ := onFft_completes h (op := fftIdle c s) (instr := fun i _ => .stgHold c i) rfl
    fun _ _ hr => onStage_some hr stageHold
  rw [fftIdle_eq] at hf
  exact ⟨encodedAs_row (.fftIdle c), t, ht, hf, hst⟩

/-! ### The bits below `rst` of the select words (30_encoding.md R77, R79 to R81) -/

/-- A Stage, FFT or scheduler select word, in its byte: the three signals after the leftmost one. -/
theorem getLsbD_of_four_bits (a b c d : Bool) :
    let w := (BitVec.ofBool a ++ BitVec.ofBool b ++ BitVec.ofBool c ++ BitVec.ofBool d).setWidth 8
    w.getLsbD 2 = b ∧ w.getLsbD 1 = c ∧ w.getLsbD 0 = d := by
  simp only [BitVec.getLsbD_setWidth, BitVec.getLsbD_append, BitVec.getLsbD_ofBool]
  simp

/-- A DMA select word, in its byte: the four signals after the leftmost one. -/
theorem getLsbD_of_five_bits (a b c d e : Bool) :
    let w := (BitVec.ofBool a ++ BitVec.ofBool b ++ BitVec.ofBool c ++ BitVec.ofBool d ++ BitVec.ofBool e).setWidth 8
    w.getLsbD 3 = b ∧ w.getLsbD 2 = c ∧ w.getLsbD 1 = d ∧ w.getLsbD 0 = e := by
  simp only [BitVec.getLsbD_setWidth, BitVec.getLsbD_append, BitVec.getLsbD_ofBool]
  simp

/-! ### The signals of a machine that has the unit (42_fft.md R131 to R133; 43_dma.md R162, R171, R172) -/

theorem fftInflight_eq_decide (f : FftRegs) : fftInflight f = decide (∃ b ∈ f.v, b = true) :=
  Bool.eq_iff_iff.mpr ((fftInflight_iff f).trans decide_eq_true_iff.symm)

theorem enableOf_of_fft {s : State} {c : Nat} {f : FftRegs} (h : fftAt s c = some f) :
    enableOf s c = (inValidOf s c || decide (∃ b ∈ f.v, b = true)) := by
  rw [enableOf, h, Option.elim_some, fftEnable, fftInflight_eq_decide]

theorem syncOf_of_fft {s : State} {c : Nat} {f : FftRegs} (h : fftAt s c = some f) :
    syncOf s c = (decide (f.samplesInCnt = 0) && inValidOf s c && !decide (∃ b ∈ f.v, b = true)) := by
  rw [syncOf, h, Option.elim_some, fftStageSync, fftInflight_eq_decide]
  rfl

theorem ph2Of_of_stage {s : State} {c i : Nat} {r : StageRegs} (h : stageAt s c i = some r) :
    ph2Of s c i = decide (delayLen s.cfg.n i ≤ if syncOf s c then initOffset s.cfg.n i else r.cnt) := by
  rw [ph2Of, h]
  rfl

/-- The comparison of `issue` is that of the counts as natural numbers. -/
theorem dmaIssueCond_eq (d : DmaRegs) :
    dmaIssueCond d = (d.active && decide (d.sampleCounter.toNat < d.numSamples.toNat)) := rfl

theorem fftValid_of_dma {s : State} {c : Nat} {d : DmaRegs} (h : dmaAt s c = some d) : fftValid s c = d.readReq := by
  rw [fftValid, h, Option.elim_some]

theorem fftData_of_dma {s : State} {c : Nat} {d : DmaRegs} (h : dmaAt s c = some d) :
    fftData s c = if d.readReq then unpack (s.rdata.getD c 0#64) else Sample.zero := by
  rw [fftData, h, Option.elim_some, dmaFftData, rdataAt]

/-- Settles O6: the bits are read off each select word, and each signal is the one its unit's registers give. -/
theorem selectWordsAreMadeOfTheNamedSignals : Obligations.SelectWordsAreMadeOfTheNamedSignals := by
  unfold Obligations.SelectWordsAreMadeOfTheNamedSignals
  intro s c i d f r hd hf hr inflight enable sync cntEff
  have henable : enableOf s c = enable := enableOf_of_fft hf
  have hsync : syncOf s c = sync := syncOf_of_fft hf
  have hph2 : ph2Of s c i = decide (delayLen s.cfg.n i ≤ cntEff) := by rw [ph2Of_of_stage hr, hsync]
  refine ⟨?_, ?_, ?_, getLsbD_of_four_bits ..⟩
  · rw [selectOf, henable, hsync, hph2]
    exact getLsbD_of_four_bits ..
  · rw [selectOf, henable, hsync]
    exact getLsbD_of_four_bits ..
  · simp only [selectOf, hd, Option.elim_some, dmaIssueCond_eq]
    exact getLsbD_of_five_bits ..

/-! ### The outputs of a core (42_fft.md R145 to R148; 43_dma.md R170 to R173) -/

theorem noIndex_eq : noIndex = BitVec.ofInt 32 (-1) := rfl

theorem outValidOut_of_fft {s : State} {c : Nat} {f : FftRegs} (h : fftAt s c = some f) :
    outValidOut s c = f.v.getD (latency s.cfg.n - 1) false := by
  rw [outValidOut, h, Option.elim_some]

/-- Settles O49, port by port: each output reads the registers of the FFT, of its last stage or of the DMA. -/
theorem outputsOfACore : Obligations.OutputsOfACore := by
  unfold Obligations.OutputsOfACore
  intro s c d f last hd hf hlast outValid
  have hvalid : outValidOut s c = outValid := outValidOut_of_fft hf
  have hstatus : statusOut s c = _ := enableOf_of_fft hf
  rw [outputsOf, outDataOut, outIndexOut, inIndexOut, hvalid, hstatus, fftValid_of_dma hd, fftData_of_dma hd, hd, hf, hlast,
    noIndex_eq]
  rfl

end Sys2Proof.Machine

/-! PROOFS of the DMA family: a busy DMA at an edge (O44), the wiring of an InterleavedFFT (O7) and the six DMA operations
(O21 to O26). -/

namespace Sys2Proof.Machine

/-! ### A busy DMA at an edge (43_dma.md R161, R174) -/

/-- The DMA of a core the configuration counts after an edge, where `active` implies `busy` before it. -/
theorem dmaAt_of_step {s t : State} {c : Nat} {d : DmaRegs} (h : step s = .next t) (hc : c < s.cfg.numCores)
    (hd : dmaAt s c = some d) (hab : d.active = true → d.busy = true) : dmaAt t c = some (dmaNextRegs s c d) := by
  obtain ⟨-, -, hcores, -⟩ := tick_next (step_next_legal h).2
  obtain ⟨k, hk, hnext⟩ := hcores c hc
  obtain ⟨d', hd', hrest⟩ := andThen_eq_next.mp hnext
  obtain ⟨f, -, hmk⟩ := andThen_eq_next.mp hrest
  cases hmk
  rw [nextDma_eq hd hab] at hd'
  cases hd'
  exact dmaAt_of_core hk

/-- After an edge there is no core beyond those the configuration counts. -/
theorem dmaAt_of_step_beyond {s t : State} {c : Nat} (h : step s = .next t) (hc : s.cfg.numCores ≤ c) :
    dmaAt t c = none := by
  obtain ⟨-, hlen, -⟩ := tick_next (step_next_legal h).2
  rw [dmaAt, List.getElem?_eq_none (by omega), Option.map_none]

/-- The next registers of a busy DMA at an edge without reset are made of its own registers and the configuration alone: neither
`start` nor the parameter inputs occur in them. -/
theorem dmaNextRegs_of_busy {s : State} {d : DmaRegs} (c : Nat) (hr : (inputsOf s).rst = false) (hb : d.busy = true) :
    dmaNextRegs s c d =
      if d.active then (if d.sampleCounter.ult d.numSamples then dmaIssue s.cfg d else dmaLoopend d) else dmaDone d := by
  simp [dmaNextRegs, hr, hb]

/-- Settles O44: by `dmaNextRegs_of_busy` both machines' DMAs take the same next registers. -/
theorem busyDmaIgnoresStart : Obligations.BusyDmaIgnoresStart := by
  unfold Obligations.BusyDmaIgnoresStart
  intro s s' t t' c d hcfg hd hd' hb hr hr' ht ht'
  by_cases hc : c < s.cfg.numCores
  · rw [dmaAt_of_step ht hc hd fun _ => hb, dmaAt_of_step ht' (hcfg ▸ hc) hd' fun _ => hb,
      dmaNextRegs_of_busy c hr hb, dmaNextRegs_of_busy c hr' hb, hcfg]
  · rw [dmaAt_of_step_beyond ht (not_lt.mp hc), dmaAt_of_step_beyond ht' (hcfg ▸ not_lt.mp hc)]

/-! ### The wires of an InterleavedFFT (44_interleaved.md R191, R194) -/

section Interleaved

variable {s : State} (h : s.cfg.wiring = .interleaved)
include h

theorem globalStart_of_interleaved : globalStart s = (inputsOf s).start := by rw [globalStart, h]

theorem dmaStart_of_interleaved (c : Nat) : dmaStart s c = startPulse s.cfg c s.sched := by rw [dmaStart, h]

theorem inValidOf_of_interleaved (c : Nat) : inValidOf s c = fftValid s c := by rw [inValidOf, h]

theorem inDataOf_of_interleaved (c : Nat) : inDataOf s c = fftData s c := by rw [inDataOf, h]

end Interleaved

/-- A stage feeds its output register to the next one (42_fft.md R134). -/
theorem stageInput_succ_of_stage {s : State} {c i : Nat} {r : StageRegs} (h : stageAt s c i = some r) :
    stageInput s c (i + 1) = r.out := by
  rw [stageInput, h, Option.elim_some]

/-- Settles O7, wire by wire. -/
theorem interleavedWiringDrivesTheUnits : Obligations.InterleavedWiringDrivesTheUnits := by
  unfold Obligations.InterleavedWiringDrivesTheUnits
  intro s c d hw hd
  refine ⟨globalStart_of_interleaved hw, dmaStart_of_interleaved hw c, ?_, ?_, rfl, fun _ _ => stageInput_succ_of_stage⟩
  · rw [inValidOf_of_interleaved hw, fftValid_of_dma hd]
  · rw [inDataOf_of_interleaved hw, fftData_of_dma hd]

/-! ### A DMA operation on the DMA it is addressed to (43_dma.md R163 to R169) -/

/-- A DMA operation on a DMA the machine has completes, and the DMA holds what the operation makes of its registers. -/
theorem onDma_completes {c : Nat} {s : State} {d : DmaRegs} (h : dmaAt s c = some d) (op : DmaRegs → DmaRegs) :
    ∃ t, onDma c s op = .next t ∧ dmaAt t c = some (op d) :=
  ⟨_, onDma_some h op, by rw [dmaAt_setDma, h, Option.map_some]⟩

/-- An address of `AW` bits passes the port's wires as it is (30_encoding.md R74). -/
theorem baseAddrIn_eq {s : State} {c : Nat} (h : ((inputsOf s).xferOf c).baseAddrIn < 2 ^ s.cfg.aw) :
    baseAddrIn s c = ((inputsOf s).xferOf c).baseAddrIn :=
  Nat.mod_eq_of_lt h

/-- A counter below a value of its own width does not wrap when it advances. -/
theorem toNat_add_one_of_lt {x y : U32} (h : x.toNat < y.toNat) : (x + 1#32).toNat = x.toNat + 1 :=
  BitVec.toNat_add_of_lt (Nat.lt_of_le_of_lt h y.isLt)

/-- Settles O21: DMA.RESET leaves its DMA the registers of `dmaResetRegs`, whatever it held. -/
theorem dmaResetClearsTheDma : Obligations.DmaResetClearsTheDma := by
  unfold Obligations.DmaResetClearsTheDma
  exact fun c s d h => ⟨encodedAs_row (.dmaReset c), onDma_completes h dmaReset⟩

/-- Settles O22: DMA.IDLE is the flag pipeline alone. -/
theorem dmaIdleMovesTheFlagsAlone : Obligations.DmaIdleMovesTheFlagsAlone := by
  unfold Obligations.DmaIdleMovesTheFlagsAlone
  exact fun c s d h => ⟨encodedAs_row (.dmaIdle c), onDma_completes h dmaIdle⟩

/-- Settles O23: DMA.ACCEPT latches the values on its ports, of which the address needs no wrapping. -/
theorem dmaAcceptLatchesTheTransfer : Obligations.DmaAcceptLatchesTheTransfer := by
  unfold Obligations.DmaAcceptLatchesTheTransfer
  intro c s d h port hport
  obtain ⟨t, ht, hd⟩ := onDma_completes h (dmaAccept (baseAddrIn s c) (numSamplesIn s c))
  rw [baseAddrIn_eq hport] at hd
  exact ⟨encodedAs_row (.dmaAccept c), t, ht, hd⟩

/-- Settles O24: DMA.ISSUE is `dmaIssue` on its DMA; `active` and the count below `num_samples` make `issue` 1 and keep the count
from wrapping. -/
theorem dmaIssueDrivesTheNextAddress : Obligations.DmaIssueDrivesTheNextAddress := by
  unfold Obligations.DmaIssueDrivesTheNextAddress
  intro c s d h hactive hlt
  obtain ⟨t, ht, hd⟩ := onDma_completes h (dmaIssue s.cfg)
  have hissue : dmaIssueCond d = true := by rw [dmaIssueCond_eq, hactive, decide_eq_true hlt, Bool.and_self]
  exact ⟨encodedAs_row (.dmaIssue c), t, _, ht, hd, rfl, rfl, toNat_add_one_of_lt hlt, hissue, rfl, rfl, rfl, rfl, rfl⟩

/-- Settles O25: DMA.LOOPEND drops `active` beside the flag pipeline, and keeps `busy`. -/
theorem dmaLoopendEndsTheIssueLoop : Obligations.DmaLoopendEndsTheIssueLoop := by
  unfold Obligations.DmaLoopendEndsTheIssueLoop
  exact fun c s d h => ⟨encodedAs_row (.dmaLoopend c), onDma_completes h dmaLoopend⟩

/-- Settles O26: DMA.DONE drops `busy` beside the flag pipeline. -/
theorem dmaDoneDropsBusy : Obligations.DmaDoneDropsBusy := by
  unfold Obligations.DmaDoneDropsBusy
  exact fun c s d h => ⟨encodedAs_row (.dmaDone c), onDma_completes h dmaDone⟩

end Sys2Proof.Machine

/-! PROOFS of the interleaved family: the scheduler at an edge (O45) and five scheduler operations (O28 to O32). -/

namespace Sys2Proof.Machine

/-! ### The scheduler at an edge (44_interleaved.md R196, R202, R204) -/

/-- An Idle scheduler past its exit bound, at an edge without reset, has a select word that no row matches: `0001` or `0011`. -/
theorem decode_sched_of_idle_exceed {s : State} (hr : (inputsOf s).rst = false) (ha : s.sched.activeStagger = false)
    (hx : schedExceed s.cfg s.sched = true) : decode .sched (selectOf s .sched) = .error .noRow := by
  rw [selectOf, hr, ha, hx]
  cases globalStart s <;> rfl

/-- Whatever the scheduler's registers, a step that answers a next state leaves them as `schedNextRegs` says: where no row matches
the select word, there is no such step. -/
theorem sched_of_step {s t : State} (h : step s = .next t) : t.sched = schedNextRegs s := by
  obtain ⟨hnext, -⟩ := tick_next (step_next_legal h).2
  by_cases hok : s.sched.activeStagger = false → schedExceed s.cfg s.sched = false
  · rw [nextSched_eq hok] at hnext
    exact (Host.Outcome.next.inj hnext).symm
  · obtain ⟨ha, hx⟩ := Classical.not_imp.mp hok
    cases hr : (inputsOf s).rst with
    | true =>
      rw [nextSched_of_reset hr] at hnext
      rw [schedNextRegs, if_pos hr, ← Host.Outcome.next.inj hnext, schReset]
    | false =>
      rw [nextSched, runUnit, decode_sched_of_idle_exceed hr ha (Bool.eq_true_of_not_eq_false hx)] at hnext
      cases hnext

/-- The next registers of a Staggering scheduler are made of its own registers, the configuration and `rst`: `start` does not
occur in them. -/
theorem schedNextRegs_of_staggering {s : State} (ha : s.sched.activeStagger = true) :
    schedNextRegs s =
      if (inputsOf s).rst then schReset s.sched
      else if schedExceed s.cfg s.sched then schExit s.sched else schCount s.sched := by
  rw [schedNextRegs, if_pos ha]

/-- An Idle scheduler that observes a global `start` performs SCH.TRIGGER. -/
theorem schedNextRegs_of_start {s : State} (hr : (inputsOf s).rst = false) (ha : s.sched.activeStagger = false)
    (hstart : globalStart s = true) : schedNextRegs s = schTrigger s.sched := by
  simp [schedNextRegs, hr, ha, hstart]

/-- Settles O45: by `sched_of_step` both clauses are about `schedNextRegs`, first of a Staggering scheduler, then of an Idle one
whose global `start` is the host's. -/
theorem staggeringSchedulerIgnoresStart : Obligations.StaggeringSchedulerIgnoresStart := by
  unfold Obligations.StaggeringSchedulerIgnoresStart
  constructor
  · intro s s' t t' hcfg hsched ha hrst ht ht'
    have ha' : s'.sched.activeStagger = true := hsched ▸ ha
    rw [sched_of_step ht, sched_of_step ht', schedNextRegs_of_staggering ha, schedNextRegs_of_staggering ha', hcfg, hsched, hrst]
  · intro s t hw ha hr hstart ht
    rw [sched_of_step ht, schedNextRegs_of_start hr ha ((globalStart_of_interleaved hw).trans hstart), schTrigger]

/-! ### The scheduler operations (44_interleaved.md R197 to R201) -/

/-- A scheduler operation completes in every state, and the scheduler holds what the operation makes of its registers. -/
theorem onSched_completes (s : State) (op : SchedRegs → SchedRegs) : ∃ t, onSched s op = .next t ∧ t.sched = op s.sched :=
  ⟨_, onSched_eq s op, setSched_sched s _⟩

/-- Settles O28: SCH.RESET leaves the scheduler the registers of `schedResetRegs`, whatever it held. -/
theorem schResetGoesIdle : Obligations.SchResetGoesIdle := by
  unfold Obligations.SchResetGoesIdle
  exact fun s => ⟨encodedAs_row .schReset, onSched_completes s schReset⟩

/-- Settles O29: SCH.IDLE gives the scheduler back the registers it held. -/
theorem schIdleKeepsTheScheduler : Obligations.SchIdleKeepsTheScheduler := by
  unfold Obligations.SchIdleKeepsTheScheduler
  exact fun s => ⟨encodedAs_row .schIdle, onSched_completes s schIdle⟩

/-- Settles O30: SCH.TRIGGER writes both registers, whatever they held. -/
theorem schTriggerStartsStaggering : Obligations.SchTriggerStartsStaggering := by
  unfold Obligations.SchTriggerStartsStaggering
  exact fun s => ⟨encodedAs_row .schTrigger, onSched_completes s schTrigger⟩

/-- Below the exit bound or at it, the counter of a legal configuration does not wrap when it advances (30_encoding.md R71). -/
theorem staggerCounter_schCount {p : Params} (hl : p.Legal) {r : SchedRegs} (h : r.staggerCounter.toNat ≤ exitBound p) :
    (schCount r).staggerCounter.toNat = r.staggerCounter.toNat + 1 :=
  BitVec.toNat_add_of_lt (Nat.lt_of_le_of_lt (Nat.succ_le_succ h) (exitBound_lt hl))

/-- Settles O31: SCH.COUNT is `schCount` on the scheduler, and `exitBound` is the bound of the statement. -/
theorem schCountAdvancesTheCounter : Obligations.SchCountAdvancesTheCounter := by
  unfold Obligations.SchCountAdvancesTheCounter
  intro s hl hle
  obtain ⟨t, ht, hsched⟩ := onSched_completes s schCount
  refine ⟨encodedAs_row .schCount, t, ht, ?_, ?_⟩
  · rw [hsched, schCount]
  · rw [hsched, staggerCounter_schCount hl hle]

/-- Settles O32: SCH.EXIT writes both registers, whatever they held. -/
theorem schExitGoesIdle : Obligations.SchExitGoesIdle := by
  unfold Obligations.SchExitGoesIdle
  exact fun s => ⟨encodedAs_row .schExit, onSched_completes s schExit⟩

end Sys2Proof.Machine

/-! PROOFS of the decoder: what a select word decodes to (O1, O2, O3, O4). -/

namespace Sys2Proof.Machine

/-! ### A word decodes to the operation of the row it matches (30_encoding.md R76) -/

/-- An operation map holds the rows of its own unit alone. -/
theorem unitOf_of_mem_rowsOf {u : UnitId} {r : Row} (h : r ∈ rowsOf u) : unitOf r.instr = u := by
  cases u <;> simp only [rowsOf, stageRows, fftRows, dmaRows, schedRows, List.mem_cons, List.not_mem_nil, or_false] at h
  case stage => obtain rfl | rfl | rfl | rfl | rfl | rfl := h <;> rfl
  case fft => obtain rfl | rfl | rfl | rfl | rfl := h <;> rfl
  case dma => obtain rfl | rfl | rfl | rfl | rfl | rfl := h <;> rfl
  case sched => obtain rfl | rfl | rfl | rfl | rfl := h <;> rfl

/-- What a unit's select word decodes to, where it does, is an operation of that unit. -/
theorem decode_ok_fits {u : UnitId} {w : BitVec 8} {i : Instr} (h : decode u w = .ok i) :
    unitOf i = u ∧ w.toNat < 2 ^ selectWidth u := by
  unfold decode at h
  split at h
  · cases h
  · next hw =>
    split at h
    · next j hj =>
      cases h
      obtain ⟨r, hr, rfl, -⟩ := (findRow_eq_some_iff (rowsOf_pairwise u)).mp hj
      exact ⟨unitOf_of_mem_rowsOf hr, not_le.mp hw⟩
    · cases h

/-- Settles O2: the operation's unit is that of the map, and the words of its row are those of `encodedAs_row`. -/
theorem decodeSelectsTheMatchingRow : Obligations.DecodeSelectsTheMatchingRow := by
  unfold Obligations.DecodeSelectsTheMatchingRow
  intro u w i
  constructor
  · intro h
    obtain ⟨rfl, hw⟩ := decode_ok_fits h
    exact ⟨rfl, hw, (encodedAs_row i w hw).mp h⟩
  · rintro ⟨rfl, hw, hm⟩
    exact (encodedAs_row i w hw).mpr hm

/-! ### The select word of an operation (30_encoding.md R78 to R81) -/

/-- Every operation's row of the opcode table is consistent, fits the select word and is read back. -/
theorem tableRow (i : Instr) : Laws.TableRow.Statement i :=
  match i with
  | .stgReset c k => Laws.TableRow.stgReset c k
  | .stgHold c k => Laws.TableRow.stgHold c k
  | .stgP1 c k => Laws.TableRow.stgP1 c k
  | .stgP2 c k => Laws.TableRow.stgP2 c k
  | .stgSyncP1 c k => Laws.TableRow.stgSyncP1 c k
  | .stgSyncP2 c k => Laws.TableRow.stgSyncP2 c k
  | .fftReset c => Laws.TableRow.fftReset c
  | .fftIdle c => Laws.TableRow.fftIdle c
  | .fftFlush c => Laws.TableRow.fftFlush c
  | .fftIngest c => Laws.TableRow.fftIngest c
  | .fftSync c => Laws.TableRow.fftSync c
  | .dmaReset c => Laws.TableRow.dmaReset c
  | .dmaIdle c => Laws.TableRow.dmaIdle c
  | .dmaAccept c => Laws.TableRow.dmaAccept c
  | .dmaIssue c => Laws.TableRow.dmaIssue c
  | .dmaLoopend c => Laws.TableRow.dmaLoopend c
  | .dmaDone c => Laws.TableRow.dmaDone c
  | .schReset => Laws.TableRow.schReset
  | .schIdle => Laws.TableRow.schIdle
  | .schTrigger => Laws.TableRow.schTrigger
  | .schCount => Laws.TableRow.schCount
  | .schExit => Laws.TableRow.schExit

theorem selectWidth_le (u : UnitId) : selectWidth u ≤ 5 := by
  cases u <;> simp [selectWidth]

/-- Bits outside the mask do not change what is compared. -/
theorem encodeWith_and_maskOf (extra : BitVec 8) (i : Instr) : encodeWith extra i &&& maskOf i = matchOf i := by
  rw [encodeWith]
  conv_rhs => rw [← (tableRow i).1]
  ext j hj
  cases hm : (maskOf i)[j] <;> simp [hm]

/-- Whatever the free bits, the word is no wider than the unit's select word. -/
theorem encodeWith_fits (extra : BitVec 8) (i : Instr) : (encodeWith extra i).toNat < 2 ^ selectWidth (unitOf i) := by
  have hw : 2 ^ selectWidth (unitOf i) ≤ 2 ^ 5 := Nat.pow_le_pow_right (by norm_num) (selectWidth_le _)
  have hp := Nat.two_pow_pos (selectWidth (unitOf i))
  rw [encodeWith, BitVec.toNat_or]
  refine Nat.or_lt_two_pow (tableRow i).2.1 ?_
  rw [BitVec.toNat_and, BitVec.toNat_ofNat]
  exact Nat.and_lt_two_pow _ (by omega)

/-- Settles O1: the word fits and agrees with the operation's row on the bits that the row compares. -/
theorem decodeOfEncodeIsTheOperation : Obligations.DecodeOfEncodeIsTheOperation := by
  unfold Obligations.DecodeOfEncodeIsTheOperation
  exact fun i extra => (encodedAs_row i _ (encodeWith_fits extra i)).mpr (encodeWith_and_maskOf extra i)

/-! ### The words that match no row (30_encoding.md R82) -/

theorem findRow_eq_none_iff {w : BitVec 8} {rows : List Row} :
    findRow w rows = none ↔ ∀ r ∈ rows, w &&& r.mask ≠ r.pattern := by
  induction rows with
  | nil => simp [findRow]
  | cons a rows ih => by_cases ha : w &&& a.mask = a.pattern <;> simp [findRow, rowMatches, ha, ih]

/-- A word of the unit's width is rejected exactly where it differs from every row. -/
theorem decode_eq_noRow_iff {u : UnitId} {w : BitVec 8} (hw : w.toNat < 2 ^ selectWidth u) :
    decode u w = .error .noRow ↔ ∀ r ∈ rowsOf u, w &&& r.mask ≠ r.pattern := by
  rw [decode, if_neg hw.not_ge, ← findRow_eq_none_iff]
  cases findRow w (rowsOf u) <;> simp

/-- Settles O3: by `decode_eq_noRow_iff` each clause compares the words of one width with the masks and patterns of one map. -/
theorem unmatchedWordsAreTheListedOnes : Obligations.UnmatchedWordsAreTheListedOnes := by
  unfold Obligations.UnmatchedWordsAreTheListedOnes
  intro c i w
  refine ⟨fun hw => (not_congr (decode_eq_noRow_iff hw)).mpr ?_, fun hw => (decode_eq_noRow_iff hw).trans ?_,
    fun hw => (decode_eq_noRow_iff hw).trans ?_, fun hw => (decode_eq_noRow_iff hw).trans ?_⟩
  all_goals
    simp only [rowsOf, stageRows, fftRows, dmaRows, schedRows, List.forall_mem_cons]
    revert w
    decide

/-- Settles O4: each word is looked up in its map. -/
theorem decodeReadsWordsOfTheMaps : Obligations.DecodeReadsWordsOfTheMaps := by
  unfold Obligations.DecodeReadsWordsOfTheMaps
  exact ⟨rfl, rfl, rfl, rfl, rfl, rfl, rfl, rfl⟩

end Sys2Proof.Machine

/-! PROOFS of the invariant: it holds after a reset (O39), every step keeps it (O40), and so the machine runs on (O41). -/

namespace Sys2Proof.Machine

/-! ### The registers of a Stage stay in range (10_state.md R23 to R25) -/

section Stage

variable {n : Nat} (hn : n = 2 ^ numStages n)
include hn

theorem stageOk_reset {i : Nat} (hi : i < numStages n) : StageOk n i (stageResetRegs n i) :=
  ⟨initOffset_lt hn hi, List.length_replicate, List.length_replicate⟩

variable {e : StageEnv} (he : e.n = n) (hi : e.stage < numStages n)
include he hi

theorem stageOk_phase1 {r : StageRegs} (h : StageOk n e.stage r) : StageOk n e.stage (phase1 e r) := by
  subst he
  obtain ⟨-, hin, hout⟩ := h
  exact ⟨Nat.mod_lt _ (stageSize_pos hn hi), by rw [phase1, List.length_set, hin], hout⟩

theorem stageOk_phase2 {r : StageRegs} (h : StageOk n e.stage r) : StageOk n e.stage (phase2 e r) := by
  subst he
  obtain ⟨-, hin, hout⟩ := h
  exact ⟨Nat.mod_lt _ (stageSize_pos hn hi), hin, by rw [phase2, List.length_set, hout]⟩

theorem stageOk_syncClear (r : StageRegs) : StageOk n e.stage (syncClear e r) := by
  subst he
  exact ⟨initOffset_lt hn hi, List.length_replicate, List.length_replicate⟩

theorem stageOk_phaseByCount {r : StageRegs} (h : StageOk n e.stage r) : StageOk n e.stage (phaseByCount e r) := by
  unfold phaseByCount
  split
  · exact stageOk_phase2 hn he hi h
  · exact stageOk_phase1 hn he hi h

theorem stageOk_syncByOffset (r : StageRegs) : StageOk n e.stage (syncByOffset e r) := by
  have hclear := stageOk_syncClear hn he hi r
  unfold syncByOffset
  split
  · exact stageOk_phase2 hn he hi hclear
  · exact stageOk_phase1 hn he hi hclear

end Stage

theorem stageOk_stageNextRegs {s : State} {c i : Nat} {r : StageRegs} (hl : s.cfg.Legal) (hi : i < numStages s.cfg.n)
    (h : StageOk s.cfg.n i r) : StageOk s.cfg.n i (stageNextRegs s c i r) := by
  have hn := (legal_facts hl).1
  unfold stageNextRegs
  split_ifs
  · exact stageOk_reset hn hi
  · exact stageOk_syncByOffset (e := stageEnv s c i) hn rfl hi r
  · exact stageOk_phaseByCount (e := stageEnv s c i) hn rfl hi h
  · exact h

/-! ### The registers of an FFT stay in range (10_state.md R28 to R31) -/

theorem nextMod_lt {n : Nat} (hn : 0 < n) (x : Nat) : nextMod n x < n := Nat.mod_lt _ hn

theorem outCntNext_lt {n : Nat} (hn : 0 < n) {f : FftRegs} (h : f.outCntReg < n) : outCntNext n f < n := by
  unfold outCntNext
  split
  · exact nextMod_lt hn _
  · exact h

/-- The FFT's own registers after an edge, apart from its stages. -/
theorem fftNextRegs_own_ok {s : State} {c : Nat} {f : FftRegs} (hn : 0 < s.cfg.n) (h : FftOk s.cfg.n f) :
    (fftNextRegs s c f).samplesInCnt < s.cfg.n ∧ (fftNextRegs s c f).outCntReg < s.cfg.n ∧
      (fftNextRegs s c f).v.length = latency s.cfg.n := by
  obtain ⟨hin, hout, hv, -, -⟩ := h
  unfold fftNextRegs
  split_ifs
  · exact ⟨hn, hn, List.length_replicate⟩
  · exact ⟨Nat.mod_lt _ hn, Nat.sub_lt hn Nat.one_pos, by rw [fftSync, shiftIn_length, hv]⟩
  · exact ⟨nextMod_lt hn _, outCntNext_lt hn hout, by rw [fftIngest, shiftIn_length, hv]⟩
  · exact ⟨hin, outCntNext_lt hn hout, by rw [fftFlush, shiftIn_length, hv]⟩
  · exact ⟨hin, hout, hv⟩

theorem fftOk_fftNextRegs {s : State} {c : Nat} {f : FftRegs} (hl : s.cfg.Legal) (hf : fftAt s c = some f)
    (h : FftOk s.cfg.n f) : FftOk s.cfg.n (fftNextRegs s c f) := by
  obtain ⟨-, hn, -⟩ := legal_facts hl
  obtain ⟨hin, hout, hv⟩ := fftNextRegs_own_ok (c := c) (by omega) h
  obtain ⟨-, -, -, hk, hst⟩ := h
  refine ⟨hin, hout, hv, by rw [fftNextRegs_stages hf, List.length_mapIdx, hk], fun i hi => ?_⟩
  have hi' : i < f.stages.length := by simpa [fftNextRegs_stages hf] using hi
  simp only [fftNextRegs_stages hf, List.getElem_mapIdx]
  exact stageOk_stageNextRegs hl (hk ▸ hi') (hst i hi')

/-! ### The registers of a DMA stay in range and related (10_state.md R32 to R41) -/

theorem dmaOk_reset (p : Params) : DmaOk p dmaResetRegs := by
  have hp : 0 < 2 ^ p.aw := Nat.two_pow_pos _
  simp [DmaOk, dmaResetRegs, hp]

/-- The flags of a DMA that is not busy: `issue` is 0, and nothing is on its way. -/
theorem dmaOk_idle_flags {p : Params} {d : DmaRegs} (h : DmaOk p d) (hb : d.busy = false) :
    dmaIssueCond d = false ∧ d.readWait = false ∧ d.readReq = false := by
  obtain ⟨-, hidle, -⟩ := h
  obtain ⟨ha, hw, hq⟩ := hidle hb
  exact ⟨by rw [dmaIssueCond, ha, Bool.false_and], hw, hq⟩

/-- DMA.IDLE on a DMA that is not busy changes nothing. -/
theorem dmaIdle_eq {p : Params} {d : DmaRegs} (h : DmaOk p d) (hb : d.busy = false) : dmaIdle d = d := by
  obtain ⟨hissue, hw, hq⟩ := dmaOk_idle_flags h hb
  cases d
  simp_all [dmaIdle, flagPipeline]

theorem dmaOk_accept {p : Params} {d : DmaRegs} (h : DmaOk p d) {base : Nat} (hbase : base < 2 ^ p.aw) (num : U32) :
    DmaOk p (dmaAccept base num d) := by
  obtain ⟨⟨-, -, hmem⟩, -⟩ := h
  simp [DmaOk, dmaAccept, flagPipeline, hbase, hmem]

theorem dmaOk_issue {p : Params} {d : DmaRegs} (h : DmaOk p d) (ha : d.active = true)
    (hlt : d.sampleCounter.toNat < d.numSamples.toNat) : DmaOk p (dmaIssue p d) := by
  obtain ⟨⟨hbase, hcur, -⟩, -, hab, -, -⟩ := h
  have hcount := toNat_add_one_of_lt hlt
  refine ⟨⟨hbase, wrapAddr_lt p _, hcur⟩, ?_, fun _ => hab ha, ?_, ?_⟩
  · simp [dmaIssue, flagPipeline, hab ha]
  · exact hcount.trans_le hlt
  · simp [dmaIssue, flagPipeline, ha]

theorem dmaOk_loopend {p : Params} {d : DmaRegs} (h : DmaOk p d) (ha : d.active = true)
    (hge : ¬ d.sampleCounter.toNat < d.numSamples.toNat) : DmaOk p (dmaLoopend d) := by
  obtain ⟨haddr, -, hab, hle, -⟩ := h
  have hissue : dmaIssueCond d = false := by rw [dmaIssueCond_eq, decide_eq_false hge, Bool.and_false]
  exact ⟨haddr, by simp [dmaLoopend, flagPipeline, hab ha], by simp [dmaLoopend], hle, fun _ => hissue⟩

theorem dmaOk_done {p : Params} {d : DmaRegs} (h : DmaOk p d) (hb : d.busy = true) (ha : d.active = false) :
    DmaOk p (dmaDone d) := by
  obtain ⟨haddr, -, -, hle, hwait⟩ := h
  have hissue : dmaIssueCond d = false := by rw [dmaIssueCond, ha, Bool.false_and]
  exact ⟨haddr, fun _ => ⟨ha, hissue, hwait ⟨hb, ha⟩⟩, by simp [dmaDone, flagPipeline, ha], hle, fun _ => hissue⟩

theorem dmaOk_dmaNextRegs {s : State} {c : Nat} {d : DmaRegs} (h : DmaOk s.cfg d) : DmaOk s.cfg (dmaNextRegs s c d) := by
  unfold dmaNextRegs
  split_ifs with hr hb ha hlt hstart
  · exact dmaOk_reset _
  · exact dmaOk_issue h ha (by simpa [BitVec.ult] using hlt)
  · exact dmaOk_loopend h ha (by simpa [BitVec.ult] using hlt)
  · exact dmaOk_done h hb (by simpa using ha)
  · exact dmaOk_accept h (wrapAddr_lt _ _) _
  · rw [dmaIdle_eq h (by simpa using hb)]
    exact h

/-! ### The scheduler's counter (10_state.md R42) -/

theorem schedOk_reset (p : Params) : SchedOk p schedResetRegs := by
  simp [SchedOk, schedResetRegs]

/-- Where the counter does not exceed the exit bound it can advance by one. -/
theorem schedOk_count {p : Params} (hl : p.Legal) {r : SchedRegs} (ha : r.activeStagger = true)
    (hle : r.staggerCounter.toNat ≤ exitBound p) : SchedOk p (schCount r) := by
  refine ⟨by simp [schCount, ha], ?_⟩
  rw [staggerCounter_schCount hl hle]
  omega

theorem schedOk_schedNextRegs {s : State} (hl : s.cfg.Legal) (h : SchedOk s.cfg s.sched) :
    SchedOk s.cfg (schedNextRegs s) := by
  unfold schedNextRegs
  split_ifs with hr ha hx hstart
  · exact schedOk_reset _
  · exact schedOk_reset _
  · exact schedOk_count hl ha (by simpa [schedExceed] using hx)
  · simp [SchedOk, schTrigger]
  · exact h

/-! ### The memory (20_memory.md R51) -/

theorem memOk_memNext {s : State} (h : MemOk s.cfg s.mem) : MemOk s.cfg (memNext s) := by
  obtain ⟨hwf, hlt⟩ := h
  unfold memNext
  split_ifs
  · exact ⟨memResetCells_wf, by simp [memResetCells]⟩
  · refine ⟨memWrite_wf hwf _ _, fun x hx => ?_⟩
    obtain hx | hx := mem_memWrite hx
    · exact hlt x hx
    · exact hx ▸ wrapAddr_lt _ _
  · exact ⟨hwf, hlt⟩

theorem rdataNext_length (s : State) : (rdataNext s).length = s.cores.length := by
  unfold rdataNext
  split
  · exact List.length_replicate
  · exact List.length_map _

/-! ### The whole state -/

/-- One edge keeps the invariant: every unit's registers keep theirs. -/
theorem inv_stateNext {s : State} (h : s.Inv) : (stateNext s).Inv := by
  obtain ⟨hl, hs, hc, hk, hm, -⟩ := h
  refine ⟨hl, schedOk_schedNextRegs hl hs, by simp [stateNext, hc], fun k hk' => ?_, memOk_memNext hm,
    by rw [stateNext_rdata, rdataNext_length, hc, stateNext_cfg]⟩
  obtain ⟨c, hlt, rfl⟩ := List.mem_mapIdx.mp hk'
  obtain ⟨hdma, hfft⟩ := hk _ (List.getElem_mem hlt)
  exact ⟨dmaOk_dmaNextRegs hdma, fftOk_fftNextRegs hl (fftAt_of_core (List.getElem?_eq_getElem hlt)) hfft⟩

/-- Settles O40: from a sound state a step leads to `stateNext`. -/
theorem stepKeepsTheInvariant : Obligations.StepKeepsTheInvariant := by
  unfold Obligations.StepKeepsTheInvariant
  intro s t hi h
  rw [step_of_inv hi] at h
  cases h
  exact inv_stateNext hi

theorem fftOk_reset {n : Nat} (hn : n = 2 ^ numStages n) : FftOk n (fftResetRegs n) := by
  have hpos : 0 < n := hn ▸ Nat.two_pow_pos _
  refine ⟨hpos, hpos, List.length_replicate, by simp [fftResetRegs], fun i hi => ?_⟩
  have hi' : i < numStages n := by simpa [fftResetRegs] using hi
  simpa [fftResetRegs] using stageOk_reset hn hi'

theorem inv_resetOf {p : Params} (hl : p.Legal) (trace : List Inputs) : (State.resetOf p trace).Inv := by
  refine ⟨hl, schedOk_reset p, List.length_replicate, fun k hk => ?_,
    ⟨memResetCells_wf, by simp [State.resetOf, memResetCells]⟩, List.length_replicate⟩
  rw [List.eq_of_mem_replicate hk]
  exact ⟨dmaOk_reset p, fftOk_reset (legal_facts hl).1⟩

/-- Settles O39: the model's own configuration is one of the legal ones. -/
theorem resetStateMeetsTheInvariant : Obligations.ResetStateMeetsTheInvariant := by
  unfold Obligations.ResetStateMeetsTheInvariant
  exact ⟨inv_resetOf (p := Config.default) (by decide) [], fun p trace hl => inv_resetOf hl trace⟩

/-! ### Runs of a machine that meets the invariant -/

/-- The state `k` edges after `s`, where `s` meets the invariant (`stateAt_stateAfter`). -/
def stateAfter (s : State) : Nat → State
  | 0 => s
  | k + 1 => stateNext (stateAfter s k)

@[simp] theorem stateAfter_zero (s : State) : stateAfter s 0 = s := rfl

theorem stateAfter_succ (s : State) (k : Nat) : stateAfter s (k + 1) = stateNext (stateAfter s k) := rfl

/-- The first edge may be taken apart as well as the last. -/
theorem stateAfter_stateNext (s : State) (k : Nat) : stateAfter (stateNext s) k = stateAfter s (k + 1) := by
  induction k with
  | zero => rfl
  | succ k ih => rw [stateAfter_succ, ih, ← stateAfter_succ]

theorem inv_stateAfter {s : State} (h : s.Inv) (k : Nat) : (stateAfter s k).Inv := by
  induction k with
  | zero => exact h
  | succ k ih => exact inv_stateNext ih

/-- A sound machine takes `k` edges, and they lead to `stateAfter s k`. -/
theorem stateAt_stateAfter {s : State} (h : s.Inv) (k : Nat) : StateAt s k (stateAfter s k) := by
  induction k generalizing s with
  | zero => exact stateAt_zero s
  | succ k ih =>
    rw [stateAt_succ (step_of_inv h), ← stateAfter_stateNext]
    exact ih (inv_stateNext h)

@[simp] theorem stateAfter_cfg (s : State) (k : Nat) : (stateAfter s k).cfg = s.cfg := by
  induction k with
  | zero => rfl
  | succ k ih => rw [stateAfter_succ, stateNext_cfg, ih]

theorem stateAfter_trace (s : State) (k : Nat) : (stateAfter s k).trace = s.trace.drop k := by
  induction k with
  | zero => rfl
  | succ k ih => rw [stateAfter_succ, stateNext_trace, ih, List.tail_drop]

/-- `rst` is 0 in each of the cycles of `NoResetFor`. -/
theorem rst_stateAfter {s : State} {m k : Nat} (h : NoResetFor s m) (hk : k < m) : (inputsOf (stateAfter s k)).rst = false := by
  rw [inputsOf_of_trace (stateAfter_trace s k)]
  exact h k hk

/-- Settles O41: the state is `stateAfter s k`. -/
theorem soundMachineNeverStops : Obligations.SoundMachineNeverStops := by
  unfold Obligations.SoundMachineNeverStops
  exact fun k s h => ⟨stateAfter s k, stateAt_stateAfter h k, inv_stateAfter h k⟩

end Sys2Proof.Machine

/-! PROOFS of the stagger law (O46) and of the DMA timing law (O47): the registers of a unit as a function of the cycle. -/

namespace Sys2Proof.Machine

/-! ### The stagger law (44_interleaved.md R203, R204; 70_reset_and_hazards.md R264) -/

/-- The last cycle, counted from the trigger, in which the scheduler is Staggering. -/
def staggerLast (p : Params) : Nat := p.numCores * hop p + 4

/-- The scheduler's registers `k` cycles after a trigger. -/
def staggerRegs (p : Params) (k : Nat) : SchedRegs :=
  { activeStagger := decide (k ≤ staggerLast p), staggerCounter := BitVec.ofNat 32 (if k ≤ staggerLast p then k - 1 else 0) }

/-- The counter of a legal configuration does not wrap. -/
theorem staggerRegs_counter {p : Params} (hl : p.Legal) (k : Nat) :
    (staggerRegs p k).staggerCounter.toNat = if k ≤ staggerLast p then k - 1 else 0 := by
  have hbound := exitBound_lt hl
  unfold exitBound at hbound
  rw [staggerRegs, BitVec.toNat_ofNat, staggerLast]
  apply Nat.mod_eq_of_lt
  split <;> omega

/-- A Staggering scheduler counts on, or exits in the last cycle, whatever `start` is. -/
theorem schedNextRegs_staggerRegs {t : State} (hl : t.cfg.Legal) (hr : (inputsOf t).rst = false) {k : Nat} (hk : 1 ≤ k)
    (hlast : k ≤ staggerLast t.cfg) (h : t.sched = staggerRegs t.cfg k) : schedNextRegs t = staggerRegs t.cfg (k + 1) := by
  have hexceed : schedExceed t.cfg (staggerRegs t.cfg k) = decide (k = staggerLast t.cfg) := by
    rw [schedExceed, staggerRegs_counter hl, if_pos hlast, decide_eq_decide, exitBound]
    unfold staggerLast at hlast ⊢
    omega
  have hactive : t.sched.activeStagger = true := by rw [h, staggerRegs, decide_eq_true hlast]
  rw [schedNextRegs_of_staggering hactive, h, hexceed, hr]
  by_cases hend : k = staggerLast t.cfg
  · simp [hend, staggerRegs, schExit]
  · obtain ⟨j, rfl⟩ := Nat.exists_eq_add_of_le' hk
    have hlt : j + 1 + 1 ≤ staggerLast t.cfg := by omega
    simp [hend, staggerRegs, schCount, hlast, hlt, BitVec.ofNat_add]

/-- From the trigger on the scheduler's registers are those of `staggerRegs`. -/
theorem sched_stateAfter {s : State} (hi : s.Inv) (ha : s.sched.activeStagger = false) (hstart : globalStart s = true)
    (hr : NoResetFor s (staggerLast s.cfg + 1)) {k : Nat} (hk : 1 ≤ k) (hlast : k ≤ staggerLast s.cfg + 1) :
    (stateAfter s k).sched = staggerRegs s.cfg k := by
  induction k, hk using Nat.le_induction with
  | base =>
    have h0 : (inputsOf s).rst = false := rst_stateAfter (k := 0) hr (Nat.succ_pos _)
    rw [stateAfter_succ, stateAfter_zero, stateNext_sched, schedNextRegs_of_start h0 ha hstart]
    simp [schTrigger, staggerRegs, staggerLast]
  | succ k hk ih =>
    have hcfg := stateAfter_cfg s k
    have hnext := schedNextRegs_staggerRegs (t := stateAfter s k) (hcfg ▸ hi.1) (rst_stateAfter hr (by omega)) hk
      (by rw [hcfg]; omega) (by rw [hcfg]; exact ih (by omega))
    rw [stateAfter_succ, stateNext_sched, hnext, hcfg]

/-- The pulse of a core while `staggerRegs` runs: in the one cycle at which the counter is its offset. -/
theorem startPulse_staggerRegs {p : Params} (hl : p.Legal) {k c : Nat} (hk : 1 ≤ k) (hlast : k ≤ staggerLast p + 1)
    (hc : c < p.numCores) : startPulse p c (staggerRegs p k) = decide (k = 1 + c * hop p) := by
  have hle : c * hop p ≤ p.numCores * hop p := Nat.mul_le_mul_right _ hc.le
  have hactive : (staggerRegs p k).activeStagger = decide (k ≤ staggerLast p) := rfl
  rw [startPulse, staggerRegs_counter hl, hactive, Bool.eq_iff_iff]
  simp only [Bool.and_eq_true, decide_eq_true_eq, beq_iff_eq]
  unfold staggerLast at *
  split <;> omega

/-- Settles O46: the registers are those of `staggerRegs`, and the pulses are read off them. -/
theorem staggerLawHolds : Obligations.StaggerLawHolds := by
  unfold Obligations.StaggerLawHolds
  intro s k hi hw ha hstart last hr hk hlast
  have hl : s.cfg.Legal := hi.1
  have hsched : (stateAfter s k).sched = staggerRegs s.cfg k :=
    sched_stateAfter hi ha ((globalStart_of_interleaved hw).trans hstart) hr hk hlast
  have hactive : (staggerRegs s.cfg k).activeStagger = decide (k ≤ last) := rfl
  have hcounter : (staggerRegs s.cfg k).staggerCounter.toNat = if k ≤ last then k - 1 else 0 := staggerRegs_counter hl k
  refine ⟨stateAfter s k, stateAt_stateAfter hi k, fun h => ?_, fun h => ?_, fun c hc => ?_⟩
  · rw [hsched, hactive, hcounter, if_pos h]
    exact ⟨decide_eq_true h, rfl⟩
  · rw [hsched, hactive, hcounter, if_neg (by omega)]
    exact ⟨decide_eq_false (by omega), rfl⟩
  · rw [dmaStart_of_interleaved (by rw [stateAfter_cfg, hw]), hsched, stateAfter_cfg]
    exact startPulse_staggerRegs hl hk hlast hc

/-! ### The DMA timing law (43_dma.md R175 to R177; 70_reset_and_hazards.md R263) -/

/-- The registers of a DMA `k` cycles after it accepted a transfer of `num` samples at `base`, its address bus at `mem0` before. -/
def transferRegs (p : Params) (base : Nat) (num : U32) (mem0 k : Nat) : DmaRegs :=
  { baseAddr := base
    numSamples := num
    sampleCounter := BitVec.ofNat 32 (min (k - 1) num.toNat)
    currentAddr := (base + min (k - 1) num.toNat) % 2 ^ p.aw
    memAddr := if k = 1 ∨ num.toNat = 0 then mem0 else (base + (min (k - 1) num.toNat - 1)) % 2 ^ p.aw
    readWait := decide (2 ≤ k ∧ k ≤ num.toNat + 1)
    readReq := decide (3 ≤ k ∧ k ≤ num.toNat + 2)
    active := decide (k ≤ num.toNat + 1)
    busy := decide (k ≤ num.toNat + 2) }

section Transfer

variable (p : Params) (base : Nat) (num : U32) (mem0 : Nat)

theorem transferRegs_counter (k : Nat) : (transferRegs p base num mem0 k).sampleCounter.toNat = min (k - 1) num.toNat := by
  have := num.isLt
  rw [transferRegs, BitVec.toNat_ofNat]
  exact Nat.mod_eq_of_lt (by omega)

/-- ACCEPT starts the transfer. -/
theorem dmaAccept_eq_transferRegs {d : DmaRegs} (h : DmaOk p d) (hb : d.busy = false) (hbase : base < 2 ^ p.aw) :
    dmaAccept base num d = transferRegs p base num d.memAddr 1 := by
  obtain ⟨hissue, hwait, -⟩ := dmaOk_idle_flags h hb
  simp [dmaAccept, flagPipeline, transferRegs, hissue, hwait, Nat.mod_eq_of_lt hbase]

/-- ISSUE in the first `n` cycles of the transfer. -/
theorem dmaIssue_transferRegs {k : Nat} (hk : 1 ≤ k) (hn : k ≤ num.toNat) :
    dmaIssue p (transferRegs p base num mem0 k) = transferRegs p base num mem0 (k + 1) := by
  obtain ⟨j, rfl⟩ := Nat.exists_eq_add_of_le' hk
  have hcond : dmaIssueCond (transferRegs p base num mem0 (j + 1)) = true := by
    rw [dmaIssueCond_eq, transferRegs_counter]
    simp [transferRegs]
    omega
  have h1 : min j num.toNat = j := by omega
  have h2 : min (j + 1) num.toNat = j + 1 := by omega
  have h3 : num.toNat ≠ 0 := by omega
  rw [dmaIssue, flagPipeline, hcond]
  simp [transferRegs, h1, h2, h3, wrapAddr, BitVec.ofNat_add, Nat.add_assoc]
  omega

/-- LOOPEND in the next one. -/
theorem dmaLoopend_transferRegs :
    dmaLoopend (transferRegs p base num mem0 (num.toNat + 1)) = transferRegs p base num mem0 (num.toNat + 2) := by
  have hcond : dmaIssueCond (transferRegs p base num mem0 (num.toNat + 1)) = false := by
    rw [dmaIssueCond_eq, transferRegs_counter]
    simp [transferRegs]
  rw [dmaLoopend, flagPipeline, hcond]
  simp [transferRegs]

/-- DONE in the last one. -/
theorem dmaDone_transferRegs :
    dmaDone (transferRegs p base num mem0 (num.toNat + 2)) = transferRegs p base num mem0 (num.toNat + 3) := by
  have hcond : dmaIssueCond (transferRegs p base num mem0 (num.toNat + 2)) = false := by
    rw [dmaIssueCond_eq, transferRegs_counter]
    simp [transferRegs]
  rw [dmaDone, flagPipeline, hcond]
  simp [transferRegs]

end Transfer

/-- A DMA in the middle of a transfer at an edge without reset. -/
theorem dmaNextRegs_transferRegs {t : State} (c base mem0 : Nat) {num : U32} (hr : (inputsOf t).rst = false) {k : Nat}
    (hk : 1 ≤ k) (hlast : k ≤ num.toNat + 2) :
    dmaNextRegs t c (transferRegs t.cfg base num mem0 k) = transferRegs t.cfg base num mem0 (k + 1) := by
  have hbusy : (transferRegs t.cfg base num mem0 k).busy = true := decide_eq_true hlast
  have hactive : (transferRegs t.cfg base num mem0 k).active = decide (k ≤ num.toNat + 1) := rfl
  have hmore : (transferRegs t.cfg base num mem0 k).sampleCounter.ult (transferRegs t.cfg base num mem0 k).numSamples =
      decide (min (k - 1) num.toNat < num.toNat) := by
    rw [BitVec.ult, transferRegs_counter]
    rfl
  rw [dmaNextRegs_of_busy c hr hbusy, hactive, hmore]
  obtain hissue | rfl | rfl : k ≤ num.toNat ∨ k = num.toNat + 1 ∨ k = num.toNat + 2 := by omega
  · rw [if_pos (by simp; omega), if_pos (by simp; omega), dmaIssue_transferRegs _ _ _ _ hk hissue]
  · rw [if_pos (by simp), if_neg (by simp), dmaLoopend_transferRegs]
  · rw [if_neg (by simp), dmaDone_transferRegs]

/-- An idle DMA that observes its `start` accepts the transfer on its ports. -/
theorem dmaNextRegs_of_start {s : State} {c : Nat} {d : DmaRegs} (hr : (inputsOf s).rst = false) (hb : d.busy = false)
    (hstart : dmaStart s c = true) : dmaNextRegs s c d = dmaAccept (baseAddrIn s c) (numSamplesIn s c) d := by
  simp [dmaNextRegs, hr, hb, hstart]

theorem dmaOk_of_inv {s : State} (hi : s.Inv) {c : Nat} {d : DmaRegs} (hd : dmaAt s c = some d) : DmaOk s.cfg d := by
  obtain ⟨-, -, -, hk, -⟩ := hi
  obtain ⟨k, hc, rfl⟩ := dmaAt_eq_some.mp hd
  exact (hk k (List.mem_of_getElem? hc)).1

theorem baseAddrIn_lt (s : State) (c : Nat) : baseAddrIn s c < 2 ^ s.cfg.aw := wrapAddr_lt _ _

/-- From the accept on the DMA's registers are those of `transferRegs`. -/
theorem dma_stateAfter {s : State} {c : Nat} {d : DmaRegs} (hi : s.Inv) (hd : dmaAt s c = some d) (hb : d.busy = false)
    (hstart : dmaStart s c = true) (hr : NoResetFor s ((numSamplesIn s c).toNat + 3)) {k : Nat} (hk : 1 ≤ k)
    (hlast : k ≤ (numSamplesIn s c).toNat + 3) :
    dmaAt (stateAfter s k) c = some (transferRegs s.cfg (baseAddrIn s c) (numSamplesIn s c) d.memAddr k) := by
  induction k, hk using Nat.le_induction with
  | base =>
    have h0 : (inputsOf s).rst = false := rst_stateAfter (k := 0) hr (Nat.succ_pos _)
    rw [stateAfter_succ, stateAfter_zero, dmaAt_stateNext hd, dmaNextRegs_of_start h0 hb hstart,
      dmaAccept_eq_transferRegs _ _ _ (dmaOk_of_inv hi hd) hb (baseAddrIn_lt s c)]
  | succ k hk ih =>
    have hnext := dmaNextRegs_transferRegs (t := stateAfter s k) c (baseAddrIn s c) d.memAddr (num := numSamplesIn s c)
      (rst_stateAfter hr (by omega)) hk (by omega)
    rw [stateAfter_cfg] at hnext
    rw [stateAfter_succ, dmaAt_stateNext (ih (by omega)), hnext]

/-- Settles O47: the registers are those of `transferRegs`; a sample is what the read port loads, one edge after its address was
driven. -/
theorem dmaTimingLawHolds : Obligations.DmaTimingLawHolds := by
  unfold Obligations.DmaTimingLawHolds
  intro s c d hi hd hb hstart n base hr
  have hdma : ∀ k, 1 ≤ k → k ≤ n + 3 →
      dmaAt (stateAfter s k) c = some (transferRegs s.cfg base (numSamplesIn s c) d.memAddr k) :=
    fun k hk hlast => dma_stateAfter hi hd hb hstart hr hk hlast
  refine ⟨fun k hk hlast => ⟨_, _, stateAt_stateAfter hi k, hdma k hk hlast, rfl, rfl, rfl, rfl,
    transferRegs_counter _ _ _ _ k, rfl, rfl⟩, fun j hj => ?_⟩
  have hreq : (transferRegs s.cfg base (numSamplesIn s c) d.memAddr (j + 3)).readReq = true :=
    decide_eq_true ⟨by omega, show j + 3 ≤ n + 2 by omega⟩
  have haddr : (transferRegs s.cfg base (numSamplesIn s c) d.memAddr (j + 2)).memAddr = (base + j) % 2 ^ s.cfg.aw := by
    have hmin : min (j + 2 - 1) n - 1 = j := by omega
    rw [transferRegs, if_neg (show ¬ (j + 2 = 1 ∨ n = 0) by omega), hmin]
  have hport : (stateAfter s (j + 3)).rdata[c]? = some (memRead (stateAfter s (j + 2)).mem ((base + j) % 2 ^ s.cfg.aw)) := by
    rw [stateAfter_succ, stateNext_rdata, rdataNext_getElem? (rst_stateAfter hr (by omega)) (hdma (j + 2) (by omega) (by omega)),
      haddr]
  have hd3 := hdma (j + 3) (by omega) (by omega)
  refine ⟨_, _, stateAt_stateAfter hi (j + 2), stateAt_stateAfter hi (j + 3), ?_, ?_⟩
  · rw [fftValid_of_dma hd3, hreq]
  · rw [fftData_of_dma hd3, hreq, if_pos rfl, List.getD_eq_getElem?_getD, hport, Option.getD_some]

end Sys2Proof.Machine

/-! PROOFS of the pipeline's laws: the derived constants (O52), the latency law of an FFT (O54) and the delay law of a Stage
(O53). -/

namespace Sys2Proof.Machine

/-! ### The derived constants (00_scope.md R7, R8; 42_fft.md R153) -/

/-- The latency of the stages before stage `i`, in closed form: their delays are a geometric sum. -/
theorem cumLatency_add_stageSize {n i : Nat} (hn : n = 2 ^ numStages n) (hi : i ≤ numStages n) :
    cumLatency n i + stageSize n i = n + i := by
  induction i with
  | zero => simp [cumLatency, stageSize]
  | succ i ih =>
    have hhalf := (stageSize_eq_two_mul hn hi).1
    have hnext : stageSize n (i + 1) = delayLen n i := by
      rw [delayLen, stageSize, stageSize, pow_succ, Nat.div_div_eq_div_mul]
    have hlat : stageLatency n i = delayLen n i + 1 := rfl
    have := ih (by omega)
    rw [cumLatency, hnext, hlat]
    omega

theorem latency_eq {n : Nat} (hn : n = 2 ^ numStages n) : latency n = (n - 1) + numStages n := by
  have hsum := cumLatency_add_stageSize hn le_rfl
  have hlast : stageSize n (numStages n) = 1 := by rw [stageSize_pow hn le_rfl, Nat.sub_self, pow_zero]
  have hpos : 0 < n := hn ▸ Nat.two_pow_pos _
  rw [latency]
  omega

/-- A count and what is missing from it to the next multiple of `m` add up to a multiple of `m`. -/
theorem complement_add_mod {m : Nat} (hm : 0 < m) (a : Nat) : ((m - a % m) % m + a) % m = 0 := by
  have hlt := Nat.mod_lt a hm
  calc ((m - a % m) % m + a) % m = (m - a % m + a % m) % m := by rw [Nat.mod_add_mod, ← Nat.add_mod_mod]
    _ = 0 := by rw [Nat.sub_add_cancel hlt.le, Nat.mod_self]

/-- Settles O52: the latency in closed form, and each offset the complement of the latency before its stage. -/
theorem derivedConstantsAlign : Obligations.DerivedConstantsAlign := by
  unfold Obligations.DerivedConstantsAlign
  intro p hl
  have hn := (legal_facts hl).1
  exact ⟨latency_eq hn, fun i hi => ⟨initOffset_lt hn hi, complement_add_mod (stageSize_pos hn hi) _⟩⟩

/-! ### The latency law (42_fft.md R143, R147, R149) -/

/-- An enabled edge without sync: the validity register shifts `in_valid` in, and the output counter advances as R143 says. -/
theorem fftNextRegs_of_inflight {s : State} {c : Nat} {f : FftRegs} (hr : (inputsOf s).rst = false)
    (hin : fftInflight f = true) :
    (fftNextRegs s c f).v = shiftIn (inValidOf s c) f.v ∧ (fftNextRegs s c f).outCntReg = outCntNext s.cfg.n f := by
  cases hv : inValidOf s c <;> simp [fftNextRegs, hr, hin, hv, fftIngest, fftFlush]

/-- The edge of a sync. -/
theorem fftNextRegs_of_sync {s : State} {c : Nat} {f : FftRegs} (hr : (inputsOf s).rst = false) (hf : fftAt s c = some f)
    (hsync : syncOf s c = true) :
    (∀ b ∈ f.v, b = false) ∧ (fftNextRegs s c f).v = shiftIn true f.v ∧ (fftNextRegs s c f).outCntReg = s.cfg.n - 1 := by
  simp only [syncOf_of_fft hf, ← fftInflight_eq_decide, Bool.and_eq_true, decide_eq_true_eq, Bool.not_eq_true'] at hsync
  obtain ⟨⟨hzero, hv⟩, hin⟩ := hsync
  refine ⟨fun b hb => ?_, ?_⟩
  · cases hbv : b
    · rfl
    · exact absurd ((fftInflight_iff f).mpr ⟨b, hb, hbv⟩) (by simp [hin])
  · simp [fftNextRegs, hr, hzero, hv, hin, fftSync]

/-- `k` cycles after a sync: the validity register holds the last `k` values of `in_valid`, and the output counter stands at
`N - 1` until the first sample is through, and then counts the samples that follow it. -/
structure BlockRegs (n l k : Nat) (valid : Nat → Bool) (f : FftRegs) : Prop where
  length : f.v.length = l
  entry : ∀ j, j < l → f.v.getD j false = (decide (j < k) && valid (k - 1 - j))
  count : f.outCntReg = if k < l then n - 1 else k - l

/-- While the block's `n` samples are in the pipeline, a sample is in flight. -/
theorem BlockRegs.inflight {n l k : Nat} {valid : Nat → Bool} {f : FftRegs} (h : BlockRegs n l k valid f) (hl : 0 < l)
    (hn : 0 < n) (hk : 1 ≤ k) (hlast : k < l + n) (hvalid : ∀ j, j < n → valid j = true) : fftInflight f = true := by
  have hmem : ∀ j, j < l → j < k → k - 1 - j < n → fftInflight f = true := fun j hj hjk hjn => by
    have hget := h.entry j hj
    rw [decide_eq_true hjk, hvalid _ hjn, Bool.and_self, List.getD_eq_getElem _ _ (h.length ▸ hj)] at hget
    exact (fftInflight_iff f).mpr ⟨_, List.getElem_mem _, hget⟩
  by_cases hkl : k ≤ l
  · exact hmem (k - 1) (by omega) (by omega) (by omega)
  · exact hmem (l - 1) (by omega) (by omega) (by omega)

/-- The edge of the sync gives the block its first cycle. -/
theorem blockRegs_of_sync {n l : Nat} {valid : Nat → Bool} {f g : FftRegs} (hl : 1 < l) (hlen : f.v.length = l)
    (hclear : ∀ b ∈ f.v, b = false) (hvalid : valid 0 = true) (hv : g.v = shiftIn true f.v) (hcount : g.outCntReg = n - 1) :
    BlockRegs n l 1 valid g := by
  refine ⟨by rw [hv, shiftIn_length, hlen], fun j hj => ?_, by rw [hcount, if_pos hl]⟩
  cases j with
  | zero => rw [hv, shiftIn_getD_zero _ (by omega)]; simp [hvalid]
  | succ j =>
    rw [hv, shiftIn_getD_succ _ (by omega), List.getD_eq_getElem _ _ (by omega), hclear _ (List.getElem_mem _)]
    simp

/-- An enabled edge without sync takes the block from one cycle to the next. -/
theorem BlockRegs.next {n l k : Nat} {valid : Nat → Bool} {f g : FftRegs} (h : BlockRegs n l k valid f) (hl : 1 < l) (hn : 0 < n)
    (hlast : k + 1 < l + n) (hvalid : ∀ j, j < n → valid j = true) (hv : g.v = shiftIn (valid k) f.v)
    (hcount : g.outCntReg = if f.v.getD (l - 2) false then nextMod n f.outCntReg else f.outCntReg) :
    BlockRegs n l (k + 1) valid g := by
  refine ⟨by rw [hv, shiftIn_length, h.length], fun j hj => ?_, ?_⟩
  · cases j with
    | zero => rw [hv, shiftIn_getD_zero _ (by rw [h.length]; omega)]; simp
    | succ j =>
      rw [hv, shiftIn_getD_succ _ (by rw [h.length]; omega), h.entry j (by omega), Nat.add_sub_cancel, Nat.sub_sub,
        Nat.add_comm 1 j]
      simp
  · rw [hcount, h.entry (l - 2) (by omega), h.count]
    by_cases hout : l ≤ k + 1
    · have hset : (decide (l - 2 < k) && valid (k - 1 - (l - 2))) = true := by
        rw [hvalid _ (by omega), Bool.and_true]
        exact decide_eq_true (by omega)
      rw [hset, if_pos rfl, if_neg hout.not_gt, nextMod]
      split
      · rw [show k + 1 - l = 0 by omega, Nat.sub_add_cancel hn, Nat.mod_self]
      · rw [Nat.mod_eq_of_lt (by omega)]; omega
    · have hclear : (decide (l - 2 < k) && valid (k - 1 - (l - 2))) = false := by
        rw [decide_eq_false (by omega), Bool.false_and]
      rw [hclear, if_neg Bool.false_ne_true, if_pos (show k < l by omega), if_pos (show k + 1 < l by omega)]

theorem fftOk_of_inv {s : State} (hi : s.Inv) {c : Nat} {f : FftRegs} (hf : fftAt s c = some f) : FftOk s.cfg.n f := by
  obtain ⟨-, -, -, hk, -⟩ := hi
  obtain ⟨k, hc, rfl⟩ := fftAt_eq_some.mp hf
  exact (hk k (List.mem_of_getElem? hc)).2

theorem fftAt_of_inv {s : State} (hi : s.Inv) {c : Nat} (hc : c < s.cfg.numCores) : ∃ f, fftAt s c = some f := by
  obtain ⟨-, -, hlen, -⟩ := hi
  exact ⟨_, fftAt_of_core (List.getElem?_eq_getElem (hlen ▸ hc))⟩

/-- From the sync until the block has left the pipeline the FFT is as `BlockRegs` says. -/
theorem blockRegs_stateAfter {s : State} {c : Nat} (hi : s.Inv) (hc : c < s.cfg.numCores) (hsync : syncOf s c = true)
    (hvalid : ∀ j, j < s.cfg.n → inValidOf (stateAfter s j) c = true) (hr : NoResetFor s (latency s.cfg.n + s.cfg.n))
    {k : Nat} (hk : 1 ≤ k) (hlast : k < latency s.cfg.n + s.cfg.n) :
    ∃ f, fftAt (stateAfter s k) c = some f ∧
      BlockRegs s.cfg.n (latency s.cfg.n) k (fun j => inValidOf (stateAfter s j) c) f := by
  obtain ⟨hn, htwo, -⟩ := legal_facts hi.1
  have hl : 1 < latency s.cfg.n := by
    have := numStages_pos hi.1
    rw [latency_eq hn]
    omega
  induction k, hk using Nat.le_induction with
  | base =>
    obtain ⟨f, hf⟩ := fftAt_of_inv hi hc
    obtain ⟨-, -, hlen, -⟩ := fftOk_of_inv hi hf
    have h0 : (inputsOf s).rst = false := rst_stateAfter (k := 0) hr (by omega)
    obtain ⟨hclear, hv, hcount⟩ := fftNextRegs_of_sync h0 hf hsync
    exact ⟨_, fftAt_stateNext hf, blockRegs_of_sync hl hlen hclear (hvalid 0 (by omega)) hv hcount⟩
  | succ k hk ih =>
    obtain ⟨f, hf, hblock⟩ := ih (by omega)
    obtain ⟨hv, hcount⟩ := fftNextRegs_of_inflight (s := stateAfter s k) (c := c) (rst_stateAfter hr (by omega))
      (hblock.inflight (by omega) (by omega) hk (by omega) hvalid)
    rw [stateAfter_cfg] at hcount
    exact ⟨_, fftAt_stateNext hf, hblock.next hl (by omega) hlast hvalid hv hcount⟩

/-- Settles O54: `out_valid` is the last entry of the validity register, and `out_index` the output counter. -/
theorem latencyLawHolds : Obligations.LatencyLawHolds := by
  unfold Obligations.LatencyLawHolds
  intro s c k hi hc hsync hpresented l hr hk hlast
  have hvalid : ∀ j, j < s.cfg.n → inValidOf (stateAfter s j) c = true :=
    fun j hj => hpresented j _ hj (stateAt_stateAfter hi j)
  obtain ⟨f, hf, hblock⟩ := blockRegs_stateAfter hi hc hsync hvalid hr hk hlast
  have hl : 0 < l := by
    have := numStages_pos hi.1
    have := latency_eq (legal_facts hi.1).1
    omega
  have hout : outValidOut (stateAfter s k) c = decide (l ≤ k) := by
    rw [outValidOut_of_fft hf, stateAfter_cfg, hblock.entry (l - 1) (by omega)]
    by_cases hlk : l ≤ k
    · rw [decide_eq_true hlk, decide_eq_true (by omega), Bool.true_and]
      exact hvalid _ (by omega)
    · rw [decide_eq_false hlk, decide_eq_false (by omega), Bool.false_and]
  refine ⟨_, stateAt_stateAfter hi k, hout, fun hlk => ?_⟩
  rw [outIndexOut, hout, if_pos (decide_eq_true hlk), hf, Option.elim_some, hblock.count, if_neg hlk.not_gt]

/-! ### The delay law of a Stage (41_stage.md R114 to R116, R120) -/

section Delay

variable {n i : Nat} {x : Nat → Sample} {d : Nat → Draw}

/-- The twiddled difference that Phase 2 stores at `j`: of the inputs of edges `j` and `D + j`. -/
def delayedDiff (n i : Nat) (x : Nat → Sample) (d : Nat → Draw) (j : Nat) : Sample :=
  smul (d (delayLen n i + j)) (ssub (d (delayLen n i + j)) (x j) (x (delayLen n i + j))) (Config.twiddle j (stageSize n i))

/-- Below `D` the count selects Phase 1. -/
theorem phaseByCount_of_lt {e : StageEnv} {r : StageRegs} (h : r.cnt < envHalf e) : phaseByCount e r = phase1 e r := by
  have h2 : stagePh2 e.n e.stage false r = false := decide_eq_false h.not_ge
  rw [phaseByCount, h2, if_neg Bool.false_ne_true]

/-- From `D` on the count selects Phase 2. -/
theorem phaseByCount_of_ge {e : StageEnv} {r : StageRegs} (h : envHalf e ≤ r.cnt) : phaseByCount e r = phase2 e r := by
  have h2 : stagePh2 e.n e.stage false r = true := decide_eq_true h
  rw [phaseByCount, h2, if_pos rfl]

/-- A buffer that holds `g` below `k` holds it below `k + 1` once `g k` is written at `k`. -/
theorem getD_set_of_lt_succ {l : List Sample} {g : Nat → Sample} {k j : Nat} (hk : k < l.length)
    (h : ∀ j, j < k → l.getD j Sample.zero = g j) (hj : j < k + 1) : (l.set k (g k)).getD j Sample.zero = g j := by
  rw [List.getD_eq_getElem _ _ (by rw [List.length_set]; omega), List.getElem_set]
  split
  · next hkj => rw [hkj]
  · next hkj => rw [← h j (by omega), List.getD_eq_getElem _ _ (by omega)]

variable {r : StageRegs} (hsize : stageSize n i = 2 * delayLen n i) (hr : StageOk n i r) (hcnt : r.cnt = 0)
include hsize hr hcnt

/-- The first `D` edges: Phase 1 stores the inputs. -/
theorem stageRun_storing {k : Nat} (hk : k ≤ delayLen n i) :
    (stageRun n i x d r k).cnt = k ∧ (stageRun n i x d r k).bufIn.length = delayLen n i ∧
      (stageRun n i x d r k).bufOut.length = delayLen n i ∧
      ∀ j, j < k → (stageRun n i x d r k).bufIn.getD j Sample.zero = x j := by
  obtain ⟨-, hin, hout⟩ := hr
  induction k with
  | zero => exact ⟨hcnt, hin, hout, fun j hj => absurd hj (Nat.not_lt_zero j)⟩
  | succ k ih =>
    obtain ⟨hc, hli, hlo, hx⟩ := ih (by omega)
    rw [stageRun, phaseByCount_of_lt (by rw [hc]; exact hk), phase1, hc]
    exact ⟨Nat.mod_eq_of_lt (by rw [envSize, hsize]; omega), by rw [List.length_set, hli], hlo,
      fun j hj => getD_set_of_lt_succ (by omega) hx hj⟩

/-- The next `D` edges: Phase 2 stores the twiddled differences, and the stored inputs stay. The count wraps at the last one. -/
theorem stageRun_combining {k : Nat} (hk : k ≤ delayLen n i) :
    (stageRun n i x d r (delayLen n i + k)).cnt = (delayLen n i + k) % stageSize n i ∧
      (stageRun n i x d r (delayLen n i + k)).bufOut.length = delayLen n i ∧
      (∀ j, j < delayLen n i → (stageRun n i x d r (delayLen n i + k)).bufIn.getD j Sample.zero = x j) ∧
      ∀ j, j < k → (stageRun n i x d r (delayLen n i + k)).bufOut.getD j Sample.zero = delayedDiff n i x d j := by
  induction k with
  | zero =>
    obtain ⟨hc, -, hlo, hx⟩ := stageRun_storing (x := x) (d := d) hsize hr hcnt le_rfl
    refine ⟨?_, hlo, hx, fun j hj => absurd hj (Nat.not_lt_zero j)⟩
    rw [Nat.add_zero, hc]
    obtain h0 | h0 := Nat.eq_zero_or_pos (delayLen n i)
    · rw [h0, Nat.zero_mod]
    · exact (Nat.mod_eq_of_lt (by omega)).symm
  | succ k ih =>
    obtain ⟨hc, hlo, hx, hdiff⟩ := ih (by omega)
    rw [Nat.mod_eq_of_lt (by omega)] at hc
    rw [← Nat.add_assoc, stageRun, phaseByCount_of_ge (by rw [hc]; exact Nat.le_add_right _ _), phase2, hc]
    have hidx : delayLen n i + k - envHalf ⟨n, i, x (delayLen n i + k), d (delayLen n i + k)⟩ = k := Nat.add_sub_cancel_left _ _
    simp only [hidx, hx k (by omega)]
    exact ⟨rfl, by rw [List.length_set, hlo], hx, fun j hj => getD_set_of_lt_succ (by omega) hdiff hj⟩

/-- The edges after those: Phase 1 emits the stored differences and leaves them where they are. -/
theorem stageRun_emitting {k : Nat} (hk : k < delayLen n i) :
    (stageRun n i x d r (delayLen n i + delayLen n i + k)).cnt = k ∧
      (∀ j, j < delayLen n i →
        (stageRun n i x d r (delayLen n i + delayLen n i + k)).bufOut.getD j Sample.zero = delayedDiff n i x d j) := by
  induction k with
  | zero =>
    obtain ⟨hc, -, -, hdiff⟩ := stageRun_combining (x := x) (d := d) hsize hr hcnt le_rfl
    exact ⟨by rw [Nat.add_zero, hc, hsize, two_mul, Nat.mod_self], hdiff⟩
  | succ k ih =>
    obtain ⟨hc, hdiff⟩ := ih (by omega)
    rw [← Nat.add_assoc, stageRun, phaseByCount_of_lt (by rw [hc]; exact Nat.lt_of_succ_lt hk), phase1, hc]
    exact ⟨Nat.mod_eq_of_lt (by rw [envSize, hsize]; omega), hdiff⟩

/-- In Phase 2 the output is the sum of the pair. -/
theorem stageRun_out_sum {p : Nat} (hp : p < delayLen n i) :
    (stageRun n i x d r (delayLen n i + p + 1)).out = sadd (d (delayLen n i + p)) (x p) (x (delayLen n i + p)) := by
  obtain ⟨hc, -, hx, -⟩ := stageRun_combining (x := x) (d := d) hsize hr hcnt hp.le
  rw [Nat.mod_eq_of_lt (by omega)] at hc
  rw [stageRun, phaseByCount_of_ge (by rw [hc]; exact Nat.le_add_right _ _), phase2, hc]
  have hidx : delayLen n i + p - envHalf ⟨n, i, x (delayLen n i + p), d (delayLen n i + p)⟩ = p := Nat.add_sub_cancel_left _ _
  simp only [hidx, hx p hp, butterfly]

/-- In the Phase 1 that follows, the output is the stored difference. -/
theorem stageRun_out_diff {j : Nat} (hj : j < delayLen n i) :
    (stageRun n i x d r (delayLen n i + delayLen n i + j + 1)).out = delayedDiff n i x d j := by
  obtain ⟨hc, hdiff⟩ := stageRun_emitting (x := x) (d := d) hsize hr hcnt hj
  rw [stageRun, phaseByCount_of_lt (by rw [hc]; exact hj), phase1, hc]
  exact hdiff j hj

end Delay

/-- Settles O53: the sums leave in the second `D` edges, the differences in the third. -/
theorem stageDelayLawHolds : Obligations.StageDelayLawHolds := by
  unfold Obligations.StageDelayLawHolds
  intro q i p x d r hl hi hok hcnt hp half
  obtain ⟨hsize, -⟩ := stageSize_eq_two_mul (legal_facts hl).1 hi
  have hsize' : stageSize q.n i = 2 * half := hsize
  split
  · next hlt => rw [Nat.add_comm p half]; exact stageRun_out_sum hsize hok hcnt hlt
  · next hge =>
    obtain ⟨j, rfl⟩ := Nat.exists_eq_add_of_le (not_lt.mp hge)
    rw [Nat.add_sub_cancel_left, Nat.add_right_comm half j half]
    exact stageRun_out_diff hsize hok hcnt (by omega)

end Sys2Proof.Machine

/-! PROOFS about one operation: the unit it runs on and what it leaves unchanged (O14, O20, O27, O33, O34), and the two Phase 2
operations of a Stage (O11, O13). -/

namespace Sys2Proof.Machine

/-! ### The unit an operation runs on (10_state.md R22) -/

/-- The operation is performed on the registers of the unit and on no others. -/
def RunsOn (i : Instr) (s : State) : UnitId → Prop
  | .stage c k => ∃ op, exec i s = onStage c k s op
  | .fft c => ∃ op, exec i s = onFft c s op
  | .dma c => ∃ op, exec i s = onDma c s op
  | .sched => ∃ op, exec i s = onSched s op

theorem exec_runsOn (i : Instr) (s : State) : RunsOn i s (unitOf i) := by
  cases i <;> exact ⟨_, rfl⟩

theorem exec_of_unit {i : Instr} {u : UnitId} (hu : unitOf i = u) (s : State) : RunsOn i s u :=
  hu ▸ exec_runsOn i s

/-- Settles O34: the four operations over a unit fault where the machine has no such unit. -/
theorem operationsOfAbsentUnitsFault : Obligations.OperationsOfAbsentUnitsFault := by
  unfold Obligations.OperationsOfAbsentUnitsFault
  intro i s habsent
  have hrun := exec_runsOn i s
  cases hu : unitOf i <;> simp only [hu] at habsent hrun ⊢
  case stage c k => obtain ⟨op, hop⟩ := hrun; rw [hop, onStage, habsent]
  case fft c => obtain ⟨op, hop⟩ := hrun; rw [hop, onFft, habsent]
  case dma c => obtain ⟨op, hop⟩ := hrun; rw [hop, onDma, habsent]

/-! ### What an operation leaves unchanged -/

theorem sameOutsideCore_setStage (s : State) (c i : Nat) (r : StageRegs) : SameOutsideCore c s (setStage s c i r) :=
  ⟨rfl, rfl, setStage_cores_length s c i r, fun _ => setStage_cores_other s i r, fun _ => rfl, rfl, rfl, rfl⟩

theorem sameOutsideCore_setFft (s : State) (c : Nat) (f : FftRegs) : SameOutsideCore c s (setFft s c f) :=
  ⟨rfl, rfl, setFft_cores_length s c f, fun _ => setFft_cores_other s f, fun _ => rfl, rfl, rfl, rfl⟩

theorem sameOutsideCore_setDma (s : State) (c : Nat) (d : DmaRegs) : SameOutsideCore c s (setDma s c d) :=
  ⟨rfl, rfl, setDma_cores_length s c d, fun _ => setDma_cores_other s d, fun _ => rfl, rfl, rfl, rfl⟩

/-- Writing a stage leaves the FFT's own registers. -/
theorem ownRegs_setStage (s : State) (c i : Nat) (r : StageRegs) :
    (fftAt (setStage s c i r) c).map ownRegs = (fftAt s c).map ownRegs := by
  rw [fftAt_setStage, Option.map_map]
  rfl

/-- Settles O14: each of the six is an operation of the stage, which `setStage` writes. -/
theorem stageOperationsWriteTheirStageAlone : Obligations.StageOperationsWriteTheirStageAlone := by
  unfold Obligations.StageOperationsWriteTheirStageAlone
  intro c i s t op hmem hexec
  have hu : unitOf op = .stage c i := by
    simp only [List.mem_cons, List.not_mem_nil, or_false] at hmem
    obtain rfl | rfl | rfl | rfl | rfl | rfl := hmem <;> rfl
  obtain ⟨f, hf⟩ := exec_of_unit hu s
  obtain ⟨r, -, rfl⟩ := onStage_next (hf ▸ hexec)
  exact ⟨sameOutsideCore_setStage .., dmaAt_setStage .., ownRegs_setStage .., fun j hj => stageAt_setStage_other s _ hj⟩

/-- Settles O20: each of the five is an operation of the FFT, which `setFft` writes. -/
theorem fftOperationsWriteTheirFftAlone : Obligations.FftOperationsWriteTheirFftAlone := by
  unfold Obligations.FftOperationsWriteTheirFftAlone
  intro c s t op hmem hexec
  have hu : unitOf op = .fft c := by
    simp only [List.mem_cons, List.not_mem_nil, or_false] at hmem
    obtain rfl | rfl | rfl | rfl | rfl := hmem <;> rfl
  obtain ⟨f, hf⟩ := exec_of_unit hu s
  obtain ⟨r, -, rfl⟩ := onFft_next (hf ▸ hexec)
  exact ⟨sameOutsideCore_setFft .., dmaAt_setFft ..⟩

/-- Settles O27: each of the six is an operation of the DMA, which `setDma` writes. -/
theorem dmaOperationsWriteTheirDmaAlone : Obligations.DmaOperationsWriteTheirDmaAlone := by
  unfold Obligations.DmaOperationsWriteTheirDmaAlone
  intro c s t op hmem hexec
  have hu : unitOf op = .dma c := by
    simp only [List.mem_cons, List.not_mem_nil, or_false] at hmem
    obtain rfl | rfl | rfl | rfl | rfl | rfl := hmem <;> rfl
  obtain ⟨f, hf⟩ := exec_of_unit hu s
  obtain ⟨r, -, rfl⟩ := onDma_next (hf ▸ hexec)
  exact ⟨sameOutsideCore_setDma .., fftAt_setDma ..⟩

/-- Settles O33: each of the five is an operation of the scheduler, which `setSched` writes. -/
theorem schedulerOperationsWriteTheSchedulerAlone : Obligations.SchedulerOperationsWriteTheSchedulerAlone := by
  unfold Obligations.SchedulerOperationsWriteTheSchedulerAlone
  intro s t op hmem hexec
  have hu : unitOf op = .sched := by
    simp only [List.mem_cons, List.not_mem_nil, or_false] at hmem
    obtain rfl | rfl | rfl | rfl | rfl := hmem <;> rfl
  obtain ⟨f, hf⟩ := exec_of_unit hu s
  obtain rfl := onSched_next (hf ▸ hexec)
  exact ⟨setSched_cfg .., setSched_cores .., fun _ => rfl, setSched_rdata .., setSched_trace .., setSched_cycle ..⟩

/-! ### Phase 2 of a Stage (41_stage.md R115, R119) -/

/-- Settles O11: STG.P2 is `phase2` on its stage, whose pair is the butterfly of the stored and the new sample. -/
theorem stgPhase2EmitsSumAndStoresDifference : Obligations.StgPhase2EmitsSumAndStoresDifference := by
  unfold Obligations.StgPhase2EmitsSumAndStoresDifference
  exact fun c i s r h _ => ⟨encodedAs_row (.stgP2 c i), onStage_completes h phase2⟩

/-- A cleared buffer reads as `ZERO`, past its end too. -/
theorem clearBuf_getD (len j : Nat) : (clearBuf len).getD j Sample.zero = Sample.zero := by
  rw [clearBuf, List.getD_eq_getElem?_getD, List.getElem?_replicate]
  split <;> rfl

/-- Phase 2 right after the buffers are cleared: the stored sample is `ZERO`, and the difference is the only element that can differ
from `ZERO` (41_stage.md R119). -/
theorem stageSyncP2_eq (e : StageEnv) (r : StageRegs) :
    stageSyncP2 e r =
      { cnt := (envOffset e + 1) % envSize e
        bufIn := clearBuf (envHalf e)
        bufOut := (clearBuf (envHalf e)).set (envOffset e - envHalf e)
          (smul e.draw (ssub e.draw Sample.zero e.x) (Config.twiddle (envOffset e - envHalf e) (envSize e)))
        out := sadd e.draw Sample.zero e.x } := by
  simp only [stageSyncP2, phase2, syncClear, clearBuf_getD, butterfly]

/-- Settles O13: STG.SYNC.P2 is `phase2` on cleared registers, which `stageSyncP2_eq` writes out. -/
theorem stgSyncPhase2StartsAFreshBlock : Obligations.StgSyncPhase2StartsAFreshBlock := by
  unfold Obligations.StgSyncPhase2StartsAFreshBlock
  intro c i s r h _ k x d
  obtain ⟨t, ht, hr⟩ := onStage_completes h stageSyncP2
  rw [stageSyncP2_eq] at hr
  exact ⟨encodedAs_row (.stgSyncP2 c i), t, ht, hr⟩

end Sys2Proof.Machine

/-! PROOFS about one clock edge: every unit runs its selected operation (O35), and a word that matches no row is a fault (O36); an
FFT and its stages agree (O50); a quiescent machine stays as it is (O48). -/

namespace Sys2Proof.Machine

/-! ### A step out of the operations of its units (00_scope.md R10; 44_interleaved.md R202) -/

theorem nextStage_eq_next {s : State} {c i : Nat} {r : StageRegs} :
    nextStage s c i = .next r ↔ ∃ t, runUnit s (.stage c i) = .next t ∧ stageAt t c i = some r := by
  simp only [nextStage, andThen_eq_next, regsOr_eq_next]

theorem nextDma_eq_next {s : State} {c : Nat} {d : DmaRegs} :
    nextDma s c = .next d ↔ ∃ t, runUnit s (.dma c) = .next t ∧ dmaAt t c = some d := by
  simp only [nextDma, andThen_eq_next, regsOr_eq_next]

/-- The FFT's own registers by its own operation, and each stage's by the operation of that stage. -/
theorem nextFft_eq_next {s : State} {c : Nat} {f : FftRegs} :
    nextFft s c = .next f ↔
      ∃ t g, runUnit s (.fft c) = .next t ∧ fftAt t c = some g ∧ f = { g with stages := f.stages } ∧
        f.stages.length = numStages s.cfg.n ∧
        ∀ i, i < numStages s.cfg.n → ∃ r, f.stages[i]? = some r ∧ nextStage s c i = .next r := by
  simp only [nextFft, andThen_eq_next, regsOr_eq_next]
  constructor
  · rintro ⟨t, ht, g, hg, stages, hst, hf⟩
    cases hf
    exact ⟨t, g, ht, hg, rfl, gather_range_eq_next.mp hst⟩
  · rintro ⟨t, g, ht, hg, hf, hst⟩
    exact ⟨t, ht, g, hg, f.stages, gather_range_eq_next.mpr hst, by rw [← hf]⟩

theorem nextCore_eq_next {s : State} {c : Nat} {k : CoreRegs} :
    nextCore s c = .next k ↔ nextDma s c = .next k.dma ∧ nextFft s c = .next k.fft := by
  simp only [nextCore, andThen_eq_next]
  constructor
  · rintro ⟨d, hd, f, hf, hk⟩
    cases hk
    exact ⟨hd, hf⟩
  · rintro ⟨hd, hf⟩
    exact ⟨k.dma, hd, k.fft, hf, rfl⟩

/-- Where every element answers a value, so does the list. -/
theorem gather_completes {α : Type} {f : Nat → Host.Outcome α Fault Refusal} {ks : List Nat}
    (h : ∀ k ∈ ks, ∃ a, f k = .next a) : ∃ as, gather f ks = .next as := by
  induction ks with
  | nil => exact ⟨[], rfl⟩
  | cons k ks ih =>
    obtain ⟨a, ha⟩ := h k List.mem_cons_self
    obtain ⟨as, has⟩ := ih fun j hj => h j (List.mem_cons_of_mem k hj)
    exact ⟨a :: as, by rw [gather, ha, andThen_next, has, andThen_next]⟩

/-- What a unit runs is an operation of its own. -/
theorem runUnit_runsOn {s t : State} {u : UnitId} (h : runUnit s u = .next t) : ∃ i, RunsOn i s u ∧ exec i s = .next t := by
  unfold runUnit at h
  split at h
  · next i hi => exact ⟨i, exec_of_unit (decode_ok_fits hi).1 s, h⟩
  · cases h

/-! The unit that ran is there in the state it leads to. -/

theorem runUnit_dma_keeps {s t : State} {c : Nat} (h : runUnit s (.dma c) = .next t) : ∃ d, dmaAt t c = some d := by
  obtain ⟨i, ⟨op, hop⟩, hexec⟩ := runUnit_runsOn h
  obtain ⟨d, hd, rfl⟩ := onDma_next (hop ▸ hexec)
  exact ⟨_, by rw [dmaAt_setDma, hd, Option.map_some]⟩

theorem runUnit_fft_keeps {s t : State} {c : Nat} (h : runUnit s (.fft c) = .next t) : ∃ f, fftAt t c = some f := by
  obtain ⟨i, ⟨op, hop⟩, hexec⟩ := runUnit_runsOn h
  obtain ⟨f, hf, rfl⟩ := onFft_next (hop ▸ hexec)
  exact ⟨_, by rw [fftAt_setFft, hf, Option.map_some]⟩

theorem runUnit_stage_keeps {s t : State} {c k : Nat} (h : runUnit s (.stage c k) = .next t) : ∃ r, stageAt t c k = some r := by
  obtain ⟨i, ⟨op, hop⟩, hexec⟩ := runUnit_runsOn h
  obtain ⟨r, hr, rfl⟩ := onStage_next (hop ▸ hexec)
  exact ⟨_, by rw [stageAt_setStage, hr, Option.map_some]⟩

/-- Where every unit of a legal configuration completes its operation, the step answers a next state. -/
theorem step_completes {s : State} (hl : s.cfg.Legal) (h : ∀ u : UnitId, u.wf s.cfg = true → ∃ t, runUnit s u = .next t) :
    ∃ t, step s = .next t := by
  have hdma : ∀ c, c < s.cfg.numCores → ∃ d, nextDma s c = .next d := fun c hc => by
    obtain ⟨t, ht⟩ := h (.dma c) (decide_eq_true hc)
    obtain ⟨d, hd⟩ := runUnit_dma_keeps ht
    exact ⟨d, nextDma_eq_next.mpr ⟨t, ht, hd⟩⟩
  have hstage : ∀ c, c < s.cfg.numCores → ∀ i ∈ List.range (numStages s.cfg.n), ∃ r, nextStage s c i = .next r := by
    intro c hc i hi
    obtain ⟨t, ht⟩ := h (.stage c i) (decide_eq_true ⟨hc, List.mem_range.mp hi⟩)
    obtain ⟨r, hr⟩ := runUnit_stage_keeps ht
    exact ⟨r, nextStage_eq_next.mpr ⟨t, ht, hr⟩⟩
  have hfft : ∀ c, c < s.cfg.numCores → ∃ f, nextFft s c = .next f := fun c hc => by
    obtain ⟨t, ht⟩ := h (.fft c) (decide_eq_true hc)
    obtain ⟨f, hf⟩ := runUnit_fft_keeps ht
    obtain ⟨stages, hst⟩ := gather_completes (hstage c hc)
    exact ⟨{ f with stages := stages }, nextFft_eq_next.mpr ⟨t, f, ht, hf, rfl, gather_range_eq_next.mp hst⟩⟩
  obtain ⟨cores, hcores⟩ := gather_completes (f := nextCore s) (ks := List.range s.cfg.numCores) fun c hc => by
    obtain ⟨d, hd⟩ := hdma c (List.mem_range.mp hc)
    obtain ⟨f, hf⟩ := hfft c (List.mem_range.mp hc)
    exact ⟨⟨d, f⟩, nextCore_eq_next.mpr ⟨hd, hf⟩⟩
  obtain ⟨t, ht⟩ := h .sched rfl
  rw [step, show configRefusal s.cfg = none from hl]
  simp [tick, nextSched, ht, hcores]

/-- Settles O35: the step completes, and `tick_next` says of which registers the next state is made. -/
theorem stepRunsTheSelectedOperations : Obligations.StepRunsTheSelectedOperations := by
  unfold Obligations.StepRunsTheSelectedOperations
  intro s op after hl h
  have hrun : ∀ u : UnitId, u.wf s.cfg = true → runUnit s u = .next (after u) := fun u hu => by
    obtain ⟨hdecode, hexec⟩ := h u hu
    rw [runUnit, hdecode]
    exact hexec
  obtain ⟨t, ht⟩ := step_completes hl fun u hu => ⟨_, hrun u hu⟩
  obtain ⟨hsched, hlen, hcores, hrest⟩ := tick_next (step_next_legal ht).2
  refine ⟨t, ht, ?_, hlen, fun c hc => ?_, hrest⟩
  · rw [nextSched, hrun .sched rfl] at hsched
    exact (Host.Outcome.next.inj hsched).symm
  obtain ⟨k, hk, hnext⟩ := hcores c hc
  obtain ⟨hdma, hfft⟩ := nextCore_eq_next.mp hnext
  obtain ⟨ud, hud, hd⟩ := nextDma_eq_next.mp hdma
  obtain ⟨uf, g, huf, hg, hown, -, hstages⟩ := nextFft_eq_next.mp hfft
  rw [hrun (.dma c) (decide_eq_true hc)] at hud
  rw [hrun (.fft c) (decide_eq_true hc)] at huf
  cases hud
  cases huf
  refine ⟨by rw [dmaAt_of_core hk, hd], by rw [fftAt_of_core hk, hg, hown]; rfl, fun i hi => ?_⟩
  obtain ⟨r, hr, hstage⟩ := hstages i hi
  obtain ⟨us, hus, hrs⟩ := nextStage_eq_next.mp hstage
  rw [hrun (.stage c i) (decide_eq_true ⟨hc, hi⟩)] at hus
  cases hus
  rw [hrs, stageAt_eq_some]
  exact ⟨_, fftAt_of_core hk, hr⟩

/-! ### A select word that matches no row (30_encoding.md R82) -/

/-- In a step that answers a next state every unit completed its operation. -/
theorem runUnit_of_step {s t : State} (h : step s = .next t) {u : UnitId} (hu : u.wf s.cfg = true) :
    ∃ v, runUnit s u = .next v := by
  obtain ⟨hsched, -, hcores, -⟩ := tick_next (step_next_legal h).2
  have hcore : ∀ c, c < s.cfg.numCores → ∃ k : CoreRegs, nextDma s c = .next k.dma ∧ nextFft s c = .next k.fft := by
    intro c hc
    obtain ⟨k, -, hk⟩ := hcores c hc
    exact ⟨k, nextCore_eq_next.mp hk⟩
  cases u with
  | sched =>
    obtain ⟨v, hv, -⟩ := andThen_eq_next.mp hsched
    exact ⟨v, hv⟩
  | dma c =>
    obtain ⟨k, hdma, -⟩ := hcore c (of_decide_eq_true hu)
    obtain ⟨v, hv, -⟩ := nextDma_eq_next.mp hdma
    exact ⟨v, hv⟩
  | fft c =>
    obtain ⟨k, -, hfft⟩ := hcore c (of_decide_eq_true hu)
    obtain ⟨v, -, hv, -⟩ := nextFft_eq_next.mp hfft
    exact ⟨v, hv⟩
  | stage c i =>
    obtain ⟨hc, hi⟩ : s.cfg.HasStage c i := of_decide_eq_true hu
    obtain ⟨k, -, hfft⟩ := hcore c hc
    obtain ⟨-, -, -, -, -, -, hstages⟩ := nextFft_eq_next.mp hfft
    obtain ⟨r, -, hr⟩ := hstages i hi
    obtain ⟨v, hv, -⟩ := nextStage_eq_next.mp hr
    exact ⟨v, hv⟩

/-- The outcome is a value or a fault, never a refusal. -/
def NotRefused {α : Type} (o : Host.Outcome α Fault Refusal) : Prop := ∀ reason, o ≠ .refused reason

theorem notRefused_next {α : Type} (a : α) : NotRefused (.next a) := fun _ h => nomatch h

theorem notRefused_fault {α : Type} (r : Fault) : NotRefused (.fault r : Host.Outcome α Fault Refusal) := fun _ h => nomatch h

theorem notRefused_andThen {α β : Type} {o : Host.Outcome α Fault Refusal} {f : α → Host.Outcome β Fault Refusal}
    (ho : NotRefused o) (hf : ∀ a, NotRefused (f a)) : NotRefused (andThen o f) := by
  cases o with
  | next a => exact hf a
  | fault r => exact notRefused_fault r
  | refused r => exact absurd rfl (ho r)

theorem notRefused_gather {α : Type} {f : Nat → Host.Outcome α Fault Refusal} (hf : ∀ k, NotRefused (f k)) (ks : List Nat) :
    NotRefused (gather f ks) := by
  induction ks with
  | nil => exact notRefused_next []
  | cons k ks ih => exact notRefused_andThen (hf k) fun a => notRefused_andThen ih fun as => notRefused_next (a :: as)

theorem notRefused_regsOr {α : Type} (u : UnitId) (r : Option α) : NotRefused (regsOr u r) := by
  cases r
  · exact notRefused_fault _
  · exact notRefused_next _

/-- Every operation has a meaning. -/
theorem notRefused_exec (i : Instr) (s : State) : NotRefused (exec i s) := by
  have hrun := exec_runsOn i s
  cases hu : unitOf i <;> rw [hu] at hrun <;> obtain ⟨op, hop⟩ := hrun <;> rw [hop]
  case stage c k => unfold onStage; split <;> [exact notRefused_fault _; exact notRefused_next _]
  case fft c => unfold onFft; split <;> [exact notRefused_fault _; exact notRefused_next _]
  case dma c => unfold onDma; split <;> [exact notRefused_fault _; exact notRefused_next _]
  case sched => exact notRefused_next _

theorem notRefused_runUnit (s : State) (u : UnitId) : NotRefused (runUnit s u) := by
  unfold runUnit
  split
  · exact notRefused_exec _ s
  · exact notRefused_fault _

/-- Nothing in a step but the check of the configuration refuses. -/
theorem notRefused_tick (s : State) : NotRefused (tick s) := by
  have hstage : ∀ c i, NotRefused (nextStage s c i) := fun c i =>
    notRefused_andThen (notRefused_runUnit s _) fun _ => notRefused_regsOr _ _
  have hdma : ∀ c, NotRefused (nextDma s c) := fun c =>
    notRefused_andThen (notRefused_runUnit s _) fun _ => notRefused_regsOr _ _
  have hfft : ∀ c, NotRefused (nextFft s c) := fun c =>
    notRefused_andThen (notRefused_runUnit s _) fun _ => notRefused_andThen (notRefused_regsOr _ _) fun _ =>
      notRefused_andThen (notRefused_gather (hstage c) _) fun _ => notRefused_next _
  have hcore : ∀ c, NotRefused (nextCore s c) := fun c =>
    notRefused_andThen (hdma c) fun _ => notRefused_andThen (hfft c) fun _ => notRefused_next _
  have hsched : NotRefused (nextSched s) := notRefused_andThen (notRefused_runUnit s _) fun _ => notRefused_next _
  exact notRefused_andThen hsched fun _ => notRefused_andThen (notRefused_gather hcore _) fun _ => notRefused_next _

/-- Settles O36: such a step answers no next state, as the unit did not complete, and does not refuse. -/
theorem stepFaultsWhereNoRowMatches : Obligations.StepFaultsWhereNoRowMatches := by
  unfold Obligations.StepFaultsWhereNoRowMatches
  intro s u e hl hu he
  cases h : step s with
  | fault r => exact ⟨r, rfl⟩
  | next t =>
    obtain ⟨v, hv⟩ := runUnit_of_step h hu
    rw [runUnit, he] at hv
    cases hv
  | refused r =>
    rw [step, show configRefusal s.cfg = none from hl] at h
    exact absurd h (notRefused_tick s r)

/-! ### An FFT and its stages (42_fft.md R135) -/

theorem stageAt_setFft (s : State) (c i : Nat) {f : FftRegs} (hf : fftAt s c = some f) (g : FftRegs) :
    stageAt (setFft s c g) c i = g.stages[i]? := by
  rw [stageAt, fftAt_setFft, hf, Option.map_some, Option.bind_some]

/-- Settles O50: by `fftNextRegs_stages` both leave the stage `stageNextRegs`. -/
theorem stageOperationsAgreeWithTheirFft : Obligations.StageOperationsAgreeWithTheirFft := by
  unfold Obligations.StageOperationsAgreeWithTheirFft
  intro s t u c i r hr ht hu
  obtain ⟨f, hf, hfr⟩ := stageAt_eq_some.mp hr
  rw [runUnit_fft hf] at ht
  rw [runUnit_stage hr] at hu
  cases ht
  cases hu
  rw [stageAt_setFft s c i hf, fftNextRegs_stages hf, List.getElem?_mapIdx, hfr, stageAt_setStage, hr]
  rfl

/-! ### A quiescent machine (70_reset_and_hazards.md R265) -/

/-- With the host's `start` 0 and the scheduler Idle no unit is started. -/
theorem no_start_of_idle {s : State} (ha : s.sched.activeStagger = false) (hstart : (inputsOf s).start = false) :
    globalStart s = false ∧ ∀ c, dmaStart s c = false := by
  have hpulse : ∀ c, startPulse s.cfg c s.sched = false := fun c => by rw [startPulse, ha, Bool.false_and]
  refine ⟨?_, fun c => ?_⟩
  · unfold globalStart
    split <;> [exact hstart; rfl; rfl]
  · unfold dmaStart
    split <;> [exact hpulse c; rfl; exact hstart]

/-- With the host's `in_valid` 0 and nothing on its way from the DMA no sample is presented. -/
theorem inValidOf_of_idle {s : State} {c : Nat} {d : DmaRegs} (hd : dmaAt s c = some d) (hq : d.readReq = false)
    (hv : (inputsOf s).inValid = false) : inValidOf s c = false := by
  unfold inValidOf
  split <;> [exact (fftValid_of_dma hd).trans hq; exact hv; rfl]

/-- Each unit of a core at rest performs its idle operation, which changes nothing. -/
theorem coreNextRegs_of_idle {s : State} {c : Nat} {k : CoreRegs} (hk : s.cores[c]? = some k) (hok : DmaOk s.cfg k.dma)
    (hr : (inputsOf s).rst = false) (hb : k.dma.busy = false) (hclear : ∀ b ∈ k.fft.v, b = false)
    (hstart : dmaStart s c = false) (hv : (inputsOf s).inValid = false) : coreNextRegs s c k = k := by
  obtain ⟨-, -, hq⟩ := dmaOk_idle_flags hok hb
  have hin : fftInflight k.fft = false := by
    rw [fftInflight_eq_decide, decide_eq_false_iff_not]
    rintro ⟨b, hbv, rfl⟩
    exact Bool.noConfusion (hclear true hbv)
  have hdma : dmaNextRegs s c k.dma = k.dma := by
    simp [dmaNextRegs, hr, hb, hstart, dmaIdle_eq hok hb]
  have hfft : fftNextRegs s c k.fft = k.fft := by
    simp [fftNextRegs, hr, inValidOf_of_idle (dmaAt_of_core hk) hq hv, hin, fftIdle_eq]
  rw [coreNextRegs, hdma, hfft]

/-- Settles O48: every unit performs its idle operation. -/
theorem quiescentMachineStaysAsItIs : Obligations.QuiescentMachineStaysAsItIs := by
  unfold Obligations.QuiescentMachineStaysAsItIs
  intro s hi hquiet hr hstart hv hw
  obtain ⟨ha, hunits⟩ := hquiet
  obtain ⟨hno, hnoDma⟩ := no_start_of_idle ha hstart
  have hsched : schedNextRegs s = s.sched := by simp [schedNextRegs, hr, ha, hno, schIdle]
  have hcores : (stateNext s).cores = s.cores := List.ext_getElem? fun c => by
    cases hc : s.cores[c]? with
    | none => simp [stateNext, List.getElem?_mapIdx, hc]
    | some k =>
      obtain ⟨hb, hclear⟩ := hunits k (List.mem_of_getElem? hc)
      rw [stateNext_core hc, coreNextRegs_of_idle hc (dmaOk_of_inv hi (dmaAt_of_core hc)) hr hb hclear (hnoDma c) hv]
  exact ⟨stateNext s, step_of_inv hi, rfl, hsched, hcores, memNext_of_no_write hr hw, fun c d hd => rdataNext_getElem? hr hd⟩

end Sys2Proof.Machine

/-! PROOFS of noninterference: a core's next registers depend on nothing of the other cores (O43), and no control register depends
on the value of a sample (O51). -/

namespace Sys2Proof.Machine

/-! ### What a core reads at an edge (44_interleaved.md R205) -/

/-- Two machines that agree on all that core `c` reads: its registers and read port, the scheduler and the inputs. -/
structure AgreeOnCore (c : Nat) (s s' : State) : Prop where
  cfg : s'.cfg = s.cfg
  sched : s'.sched = s.sched
  inputs : inputsOf s' = inputsOf s
  cycle : s'.cycle = s.cycle
  core : s'.cores[c]? = s.cores[c]?
  port : s'.rdata[c]? = s.rdata[c]?

namespace AgreeOnCore

variable {c : Nat} {s s' : State} (h : AgreeOnCore c s s')
include h

theorem dmaAt_eq : dmaAt s' c = dmaAt s c := by rw [dmaAt, dmaAt, h.core]

theorem fftAt_eq : fftAt s' c = fftAt s c := by rw [fftAt, fftAt, h.core]

theorem stageAt_eq (i : Nat) : stageAt s' c i = stageAt s c i := by rw [stageAt, stageAt, h.fftAt_eq]

theorem dmaStart_eq : dmaStart s' c = dmaStart s c := by rw [dmaStart, dmaStart, h.cfg, h.sched, h.inputs]

theorem inValidOf_eq : inValidOf s' c = inValidOf s c := by
  rw [inValidOf, inValidOf, fftValid, fftValid, h.cfg, h.inputs, h.dmaAt_eq]

theorem inDataOf_eq : inDataOf s' c = inDataOf s c := by
  have hbus : rdataAt s' c = rdataAt s c := by
    rw [rdataAt, rdataAt, List.getD_eq_getElem?_getD, h.port, List.getD_eq_getElem?_getD]
  rw [inDataOf, inDataOf, fftData, fftData, h.cfg, h.inputs, h.dmaAt_eq, hbus]

theorem stageEnv_eq (i : Nat) : stageEnv s' c i = stageEnv s c i := by
  have hx : stageInput s' c i = stageInput s c i := by
    cases i with
    | zero => exact h.inDataOf_eq
    | succ i => rw [stageInput, stageInput, h.stageAt_eq]
  rw [stageEnv, stageEnv, h.cfg, h.cycle, hx]

theorem allStages_eq (op : StageEnv → StageRegs → StageRegs) (l : List StageRegs) :
    allStages c s' op l = allStages c s op l := by
  simp only [allStages, h.stageEnv_eq]

theorem dmaNextRegs_eq (d : DmaRegs) : dmaNextRegs s' c d = dmaNextRegs s c d := by
  simp only [dmaNextRegs, baseAddrIn, numSamplesIn, h.cfg, h.inputs, h.dmaStart_eq]

theorem fftNextRegs_eq (f : FftRegs) : fftNextRegs s' c f = fftNextRegs s c f := by
  simp only [fftNextRegs, fftReset, fftSync, fftIngest, fftFlush, fftIdle, h.cfg, h.inputs, h.inValidOf_eq, h.allStages_eq]

theorem stateNext_core_eq : (stateNext s').cores[c]? = (stateNext s).cores[c]? := by
  cases hc : s.cores[c]? with
  | none => simp [stateNext, List.getElem?_mapIdx, hc, h.core]
  | some k =>
    rw [stateNext_core hc, stateNext_core (h.core.trans hc), coreNextRegs, coreNextRegs, h.dmaNextRegs_eq, h.fftNextRegs_eq]

end AgreeOnCore

/-- A read port loads the word at its own DMA's address. -/
theorem rdataNext_getElem?_of_agree {s s' : State} {c : Nat} (hr : (inputsOf s').rst = (inputsOf s).rst)
    (hlen : s'.cores.length = s.cores.length) (hcore : s'.cores[c]? = s.cores[c]?)
    (hmem : ∀ a, memRead s'.mem a = memRead s.mem a) : (rdataNext s')[c]? = (rdataNext s)[c]? := by
  unfold rdataNext
  rw [hr, hlen]
  split
  · rfl
  · rw [List.getElem?_map, List.getElem?_map, hcore]
    exact congrFun (congrArg Option.map (funext fun k => hmem _)) _

/-- Settles O43: all that core `c` reads is what the two machines agree on. -/
theorem coresAreIndependent : Obligations.CoresAreIndependent := by
  unfold Obligations.CoresAreIndependent
  intro s s' t t' c hi hi' ht ht' hcfg hsched hinputs hcycle hcore hport hmem
  have hagree : AgreeOnCore c s s' := ⟨hcfg, hsched, hinputs, hcycle, hcore, hport⟩
  rw [step_of_inv hi] at ht
  rw [step_of_inv hi'] at ht'
  cases ht
  cases ht'
  obtain ⟨-, -, hlen, -⟩ := hi
  obtain ⟨-, -, hlen', -⟩ := hi'
  exact ⟨hagree.stateNext_core_eq,
    rdataNext_getElem?_of_agree (by rw [hinputs]) (by rw [hlen, hlen', hcfg]) hcore hmem⟩

/-! ### What an edge does to the samples enters no control register (00_scope.md R11; 30_encoding.md R77 to R81) -/

/-- The part of `forgetSamples` that is about one stage. -/
def forgetStage (r : StageRegs) : StageRegs :=
  { cnt := r.cnt, bufIn := clearBuf r.bufIn.length, bufOut := clearBuf r.bufOut.length, out := Sample.zero }

/-- The part of `forgetSamples` that is about one FFT. -/
def forgetFft (f : FftRegs) : FftRegs := { f with stages := f.stages.map forgetStage }

/-- The part of `forgetSamples` that is about one core. -/
def forgetCore (k : CoreRegs) : CoreRegs := { k with fft := forgetFft k.fft }

theorem forgetSamples_eq (s : State) :
    forgetSamples s = { s with cores := s.cores.map forgetCore, mem := [], rdata := clearWords s.rdata } := rfl

/-- What a Stage operation leaves, its samples forgotten, depends neither on the samples it had nor on its input. -/
def Blind (op : StageEnv → StageRegs → StageRegs) : Prop :=
  ∀ (e e' : StageEnv) (r : StageRegs), e'.n = e.n → e'.stage = e.stage →
    forgetStage (op e' (forgetStage r)) = forgetStage (op e r)

theorem blind_stageReset : Blind stageReset := by
  intro e e' r hn hi
  rw [stageReset, stageReset, hn, hi]

theorem blind_stageHold : Blind stageHold := by
  intro e e' r _ _
  simp [stageHold, forgetStage, clearBuf]

theorem blind_phase1 : Blind phase1 := by
  intro e e' r hn hi
  simp [phase1, forgetStage, clearBuf, envSize, hn, hi]

theorem blind_phase2 : Blind phase2 := by
  intro e e' r hn hi
  simp [phase2, forgetStage, clearBuf, envSize, hn, hi]

/-- Clearing for a sync leaves no sample but the output, which is written next. -/
theorem syncClear_forgetStage {e e' : StageEnv} (hn : e'.n = e.n) (hi : e'.stage = e.stage) (r : StageRegs) :
    syncClear e' (forgetStage r) = forgetStage (syncClear e r) := by
  simp [syncClear, forgetStage, clearBuf, envOffset, envHalf, hn, hi]

theorem blind_phaseByCount : Blind phaseByCount := by
  intro e e' r hn hi
  have hph2 : stagePh2 e'.n e'.stage false (forgetStage r) = stagePh2 e.n e.stage false r := by rw [hn, hi]; rfl
  rw [phaseByCount, phaseByCount, hph2]
  split
  · exact blind_phase2 e e' r hn hi
  · exact blind_phase1 e e' r hn hi

theorem blind_syncByOffset : Blind syncByOffset := by
  intro e e' r hn hi
  have hph2 : stagePh2 e'.n e'.stage true (forgetStage r) = stagePh2 e.n e.stage true r := by rw [hn, hi]; rfl
  rw [syncByOffset, syncByOffset, hph2, stageSyncP1, stageSyncP1, stageSyncP2, stageSyncP2, syncClear_forgetStage hn hi]
  split
  · exact blind_phase2 e e' _ hn hi
  · exact blind_phase1 e e' _ hn hi

@[simp] theorem forgetSamples_cfg (s : State) : (forgetSamples s).cfg = s.cfg := rfl
@[simp] theorem forgetSamples_sched (s : State) : (forgetSamples s).sched = s.sched := rfl
@[simp] theorem inputsOf_forgetSamples (s : State) : inputsOf (forgetSamples s) = inputsOf s := rfl

theorem stageEnv_n (s : State) (c i : Nat) : (stageEnv s c i).n = s.cfg.n := rfl

theorem stageEnv_stage (s : State) (c i : Nat) : (stageEnv s c i).stage = i := rfl

theorem stageEnv_forgetSamples_n (s : State) (c i : Nat) : (stageEnv (forgetSamples s) c i).n = (stageEnv s c i).n :=
  (stageEnv_n _ c i).trans (stageEnv_n s c i).symm

theorem stageEnv_forgetSamples_stage (s : State) (c i : Nat) : (stageEnv (forgetSamples s) c i).stage = (stageEnv s c i).stage :=
  (stageEnv_stage _ c i).trans (stageEnv_stage s c i).symm

/-- Where forgetting before an indexed update or not makes no difference, once all is forgotten, neither does it for the list. -/
theorem map_mapIdx_map {α : Type} {forget : α → α} {f f' : Nat → α → α}
    (h : ∀ i a, forget (f' i (forget a)) = forget (f i a)) (l : List α) : ((l.map forget).mapIdx f').map forget = (l.mapIdx f).map forget := by
  refine List.ext_getElem? fun i => ?_
  simp only [List.getElem?_map, List.getElem?_mapIdx]
  cases l[i]? with
  | none => rfl
  | some a => simp only [Option.map_some, h]

/-- All stages of an FFT together. -/
theorem forget_allStages {op : StageEnv → StageRegs → StageRegs} (hop : Blind op) (c : Nat) (s : State) (l : List StageRegs) :
    (allStages c (forgetSamples s) op (l.map forgetStage)).map forgetStage = (allStages c s op l).map forgetStage := by
  rw [allStages, allStages]
  exact map_mapIdx_map (fun i r => hop _ _ r (stageEnv_forgetSamples_n s c i) (stageEnv_forgetSamples_stage s c i)) l

/-! The signals of a cycle do not change when the samples are forgotten. -/

theorem dmaAt_forgetSamples (s : State) (c : Nat) : dmaAt (forgetSamples s) c = dmaAt s c := by
  rw [dmaAt, dmaAt, forgetSamples_eq, List.getElem?_map, Option.map_map]
  rfl

theorem inValidOf_forgetSamples (s : State) (c : Nat) : inValidOf (forgetSamples s) c = inValidOf s c := by
  simp only [inValidOf, fftValid, dmaAt_forgetSamples, forgetSamples_cfg, inputsOf_forgetSamples]

theorem dmaStart_forgetSamples (s : State) (c : Nat) : dmaStart (forgetSamples s) c = dmaStart s c := by
  rw [dmaStart, dmaStart, forgetSamples_cfg, forgetSamples_sched, inputsOf_forgetSamples]

theorem globalStart_forgetSamples (s : State) : globalStart (forgetSamples s) = globalStart s := by
  rw [globalStart, globalStart, forgetSamples_cfg, inputsOf_forgetSamples]

theorem dmaNextRegs_forgetSamples (s : State) (c : Nat) (d : DmaRegs) :
    dmaNextRegs (forgetSamples s) c d = dmaNextRegs s c d := by
  simp only [dmaNextRegs, baseAddrIn, numSamplesIn, dmaStart_forgetSamples, forgetSamples_cfg, inputsOf_forgetSamples]

theorem schedNextRegs_forgetSamples (s : State) : schedNextRegs (forgetSamples s) = schedNextRegs s := by
  rw [schedNextRegs, schedNextRegs, globalStart_forgetSamples, inputsOf_forgetSamples, forgetSamples_cfg, forgetSamples_sched]

/-- Whatever operation the FFT performs, its control registers and its counts do not depend on the samples. -/
theorem forgetFft_fftNextRegs (s : State) (c : Nat) (f : FftRegs) :
    forgetFft (fftNextRegs (forgetSamples s) c (forgetFft f)) = forgetFft (fftNextRegs s c f) := by
  have hin : fftInflight (forgetFft f) = fftInflight f := rfl
  have hcnt : (forgetFft f).samplesInCnt = f.samplesInCnt := rfl
  unfold fftNextRegs
  rw [inputsOf_forgetSamples, inValidOf_forgetSamples, hin, hcnt]
  split_ifs
  · exact congrArg (fun l => { fftReset c s f with stages := l }) (forget_allStages blind_stageReset c s f.stages)
  · exact congrArg (fun l => { fftSync c s f with stages := l }) (forget_allStages blind_syncByOffset c s f.stages)
  · exact congrArg (fun l => { fftIngest c s f with stages := l }) (forget_allStages blind_phaseByCount c s f.stages)
  · exact congrArg (fun l => { fftFlush c s f with stages := l }) (forget_allStages blind_phaseByCount c s f.stages)
  · exact congrArg (fun l => { fftIdle c s f with stages := l }) (forget_allStages blind_stageHold c s f.stages)

theorem forgetCore_coreNextRegs (s : State) (c : Nat) (k : CoreRegs) :
    forgetCore (coreNextRegs (forgetSamples s) c (forgetCore k)) = forgetCore (coreNextRegs s c k) := by
  have hfft := forgetFft_fftNextRegs s c k.fft
  simp only [forgetCore, coreNextRegs, dmaNextRegs_forgetSamples, hfft]

theorem clearWords_of_length {ws ws' : List U64} (h : ws.length = ws'.length) : clearWords ws = clearWords ws' := by
  rw [clearWords, clearWords, List.map_const', List.map_const', h]

theorem stateNext_cores (s : State) : (stateNext s).cores = s.cores.mapIdx (coreNextRegs s) := rfl

theorem forgetSamples_cores (s : State) : (forgetSamples s).cores = s.cores.map forgetCore := rfl

/-- Two machines that differ in sample values alone. -/
theorem forgetSamples_congr {s s' : State} (hcfg : s'.cfg = s.cfg) (hsched : s'.sched = s.sched)
    (hcores : s'.cores.map forgetCore = s.cores.map forgetCore) (hrdata : s'.rdata.length = s.rdata.length)
    (htrace : s'.trace = s.trace) (hcycle : s'.cycle = s.cycle) : forgetSamples s' = forgetSamples s := by
  rw [forgetSamples_eq, forgetSamples_eq, hcfg, hsched, hcores, clearWords_of_length hrdata, htrace, hcycle]

/-- An edge of the machine with its samples forgotten leads, the samples forgotten, to where the machine's own edge leads. -/
theorem forgetSamples_stateNext (s : State) : forgetSamples (stateNext (forgetSamples s)) = forgetSamples (stateNext s) := by
  have hcores : (stateNext (forgetSamples s)).cores.map forgetCore = (stateNext s).cores.map forgetCore := by
    rw [stateNext_cores, stateNext_cores, forgetSamples_cores]
    exact map_mapIdx_map (forgetCore_coreNextRegs s) s.cores
  have hrdata : (rdataNext (forgetSamples s)).length = (rdataNext s).length := by
    rw [rdataNext_length, rdataNext_length, forgetSamples_cores, List.length_map]
  exact forgetSamples_congr rfl (schedNextRegs_forgetSamples s) hcores hrdata rfl rfl

/-- Settles O51: by `forgetSamples_stateNext` the next state, its samples forgotten, is made of the state with its samples
forgotten. -/
theorem controlIgnoresSampleValues : Obligations.ControlIgnoresSampleValues := by
  unfold Obligations.ControlIgnoresSampleValues
  intro s s' t t' hi hi' h ht ht'
  rw [step_of_inv hi] at ht
  rw [step_of_inv hi'] at ht'
  cases ht
  cases ht'
  rw [← forgetSamples_stateNext s, h, forgetSamples_stateNext s']

end Sys2Proof.Machine

/-! PROOFS of the Sample arithmetic: rounding (O58), sums and products (O59), the corner cases of `sadd` and `ssub` (O56, O57),
unpacking (O55) and the drawn NaNs (O60). -/

namespace Sys2Proof.Machine

/-! ### Magnitude bits and the value they stand for (40_sample.md R90) -/

theorem infBits_lt : infBits < 2 ^ 63 := by norm_num [infBits]

theorem fIsFinite_ofSignBits (sign : Bool) {bits : Nat} (h : bits ≤ infBits) :
    fIsFinite (ofSignBits sign bits) = true ↔ bits < infBits := by
  rw [fIsFinite, fExp_ofSignBits sign (h.trans_lt infBits_lt), bne_iff_ne]
  unfold infBits at *
  omega

/-- A significand of at most 53 bits with its last place at `2^u`: the magnitude bits `u * 2^52 + a` are those of `a * 2^u`, whether
the value is subnormal, normal, or a significand that carried into the exponent field. -/
theorem fMag_ofSignBits (sign : Bool) {u a : Nat} (ha : a ≤ 2 ^ 53) (hu : u ≠ 0 → 2 ^ 52 ≤ a)
    (hfin : u * 2 ^ 52 + a < infBits) : fMag (ofSignBits sign (u * 2 ^ 52 + a)) = a * 2 ^ u := by
  have hlt := hfin.trans infBits_lt
  rw [fMag, fExp_ofSignBits sign hlt, fFrac_ofSignBits sign hlt]
  obtain hsub | hnorm | hcarry : a < 2 ^ 52 ∨ 2 ^ 52 ≤ a ∧ a < 2 ^ 53 ∨ a = 2 ^ 53 := by omega
  · obtain rfl : u = 0 := by
      by_contra h
      exact absurd (hu h) (not_le.mpr hsub)
    rw [if_pos (by omega), show (0 * 2 ^ 52 + a) % 2 ^ 52 = a by omega, pow_zero, Nat.mul_one]
  · have hexp : (u * 2 ^ 52 + a) / 2 ^ 52 = u + 1 := by omega
    have hfrac : 2 ^ 52 + (u * 2 ^ 52 + a) % 2 ^ 52 = a := by omega
    rw [hexp, hfrac, if_neg u.succ_ne_zero, Nat.add_sub_cancel]
  · have hexp : (u * 2 ^ 52 + a) / 2 ^ 52 = u + 2 := by omega
    have hfrac : (u * 2 ^ 52 + a) % 2 ^ 52 = 0 := by omega
    rw [hexp, hfrac, if_neg (by omega), hcarry, show u + 2 - 1 = u + 1 by omega, pow_succ 2 u]
    ring

/-- Such a value rounds to itself. -/
theorem roundBits_exact {u a : Nat} (ha : a ≤ 2 ^ 53) (hu : u ≠ 0 → 2 ^ 52 ≤ a) (hfin : u * 2 ^ 52 + a < infBits) :
    roundBits (a * 2 ^ u) 0 = u * 2 ^ 52 + a := by
  have hlt := hfin.trans infBits_lt
  have hround := roundBits_fMag ((fIsFinite_ofSignBits false hfin.le).mpr hfin)
  rw [fMag_ofSignBits false ha hu hfin, fExp_ofSignBits false hlt, fFrac_ofSignBits false hlt] at hround
  rw [hround, Nat.div_add_mod']

/-! ### Rounding to nearest, ties to even -/

/-- `roundShift` is off by half a unit at most, and where it is, what it answers is even. -/
theorem roundShift_half (m t : Nat) :
    2 * ((m : Int) - roundShift m t * (2 ^ t : Nat)).natAbs ≤ 2 ^ t ∧
      (2 * ((m : Int) - roundShift m t * (2 ^ t : Nat)).natAbs = 2 ^ t → roundShift m t % 2 = 0) := by
  obtain ⟨q, r, hm, hr, hcases⟩ := roundShift_cases m t
  have hm' : (m : Int) = q * (2 ^ t : Nat) + r := by exact_mod_cast hm
  obtain ⟨hq, hle, htie⟩ | ⟨hq, hle, htie⟩ := hcases
  · have hoff : (m : Int) - roundShift m t * (2 ^ t : Nat) = r := by rw [hq, hm']; ring
    rw [hoff, hq]
    omega
  · have hoff : (m : Int) - roundShift m t * (2 ^ t : Nat) = r - (2 ^ t : Nat) := by rw [hq, hm']; push_cast; ring
    rw [hoff, hq]
    omega

/-- Two different multiples of a unit are a unit apart, so the distances from `m` to them add up to a unit at least. -/
theorem unit_le_distances (m : Int) (unit : Nat) {a b : Nat} (h : a ≠ b) :
    unit ≤ (m - a * unit).natAbs + (m - b * unit).natAbs := by
  have hne : 1 ≤ ((b : Int) - a).natAbs := by omega
  calc unit ≤ ((b : Int) - a).natAbs * unit := Nat.le_mul_of_pos_left _ hne
    _ = (((m : Int) - a * unit) - (m - b * unit)).natAbs := by
      rw [show (m - a * unit) - (m - b * unit) = ((b : Int) - a) * unit by ring, Int.natAbs_mul, Int.natAbs_natCast]
    _ ≤ _ := Int.natAbs_sub_le _ _

/-- A multiple within half a unit of `m` is a nearest one; another is as near only where `m` lies halfway. -/
theorem nearest_of_half {m : Int} {unit a : Nat} (hhalf : 2 * (m - a * unit).natAbs ≤ unit) (b : Nat) :
    (m - a * unit).natAbs ≤ (m - b * unit).natAbs ∧
      ((m - a * unit).natAbs = (m - b * unit).natAbs → b ≠ a → 2 * (m - a * unit).natAbs = unit) := by
  by_cases hba : b = a
  · exact ⟨by rw [hba], fun _ hne => absurd hba hne⟩
  · have := unit_le_distances m unit (Ne.symm hba)
    exact ⟨by omega, fun _ _ => by omega⟩

/-- A multiple within half a unit of `m` is nearer than whatever lies below a lesser multiple. -/
theorem nearer_of_half {m unit a b v : Nat} (hhalf : 2 * ((m : Int) - a * unit).natAbs ≤ unit) (hv : v < b * unit)
    (hm : b * unit ≤ m) : ((m : Int) - a * unit).natAbs < ((m : Int) - v).natAbs := by
  refine (nearest_of_half hhalf b).1.trans_lt ?_
  rw [← Nat.cast_mul]
  omega

/-- What `roundBits` is made of, where it does not overflow: the place `2^u` of the last bit, and a significand there, which is full
where `u` is not the least place. -/
theorem roundBits_spec {m s : Nat} (h : roundBits m s < infBits) :
    ∃ u, roundBits m s = u * 2 ^ 52 + roundShift m (s + u) ∧ roundShift m (s + u) ≤ 2 ^ 53 ∧
      (u ≠ 0 → 2 ^ 52 ≤ roundShift m (s + u) ∧ 2 ^ 52 * 2 ^ (s + u) ≤ m) := by
  refine ⟨m.log2 - s - 52, ?_, ?_⟩
  · simp only [roundBits] at h ⊢
    exact min_eq_left (le_of_lt (by simpa using h))
  generalize hu : m.log2 - s - 52 = u
  have hp := Nat.two_pow_pos (s + u)
  have hhi : m < 2 ^ 53 * 2 ^ (s + u) := by
    rw [← pow_add]
    exact Nat.lt_log2_self.trans_le (Nat.pow_le_pow_right (by norm_num) (by omega))
  have hlo : u ≠ 0 → 2 ^ 52 * 2 ^ (s + u) ≤ m := fun h0 => by
    rw [← pow_add]
    exact (Nat.pow_le_pow_right (by norm_num) (by omega)).trans (Nat.log2_self_le (by rintro rfl; simp at hu; omega))
  obtain ⟨q, r, hm, hr, hcases⟩ := roundShift_cases m (s + u)
  have hq : q < 2 ^ 53 := Nat.lt_of_mul_lt_mul_right (a := 2 ^ (s + u)) (by omega)
  have hq' : u ≠ 0 → 2 ^ 52 < q + 1 := fun h0 =>
    Nat.lt_of_mul_lt_mul_right (a := 2 ^ (s + u)) (by have := hlo h0; rw [Nat.succ_mul]; omega)
  refine ⟨by omega, fun h0 => ⟨?_, hlo h0⟩⟩
  have := hq' h0
  omega

/-- A finite value is a multiple of `2^u`, or it is smaller than every value with a full significand there. -/
theorem fMag_multiple_or_small (y : F64) (u : Nat) : 2 ^ u ∣ fMag y ∨ u ≠ 0 ∧ fMag y < 2 ^ 52 * 2 ^ u := by
  have hfrac := fFrac_lt y
  obtain rfl | hu := Nat.eq_zero_or_pos u
  · exact .inl (by simp)
  have hone : 2 * 1 ≤ 2 ^ u := by
    rw [Nat.mul_one]
    exact Nat.le_self_pow hu.ne' 2
  unfold fMag
  split
  · exact .inr ⟨hu.ne', by omega⟩
  · by_cases hle : u ≤ fExp y - 1
    · exact .inl (Dvd.dvd.mul_left (pow_dvd_pow 2 hle) _)
    · obtain ⟨j, rfl⟩ : ∃ j, u = fExp y - 1 + (j + 1) := ⟨u - fExp y, by omega⟩
      refine .inr ⟨hu.ne', ?_⟩
      calc (2 ^ 52 + fFrac y) * 2 ^ (fExp y - 1) < 2 ^ 53 * 2 ^ (fExp y - 1) :=
            Nat.mul_lt_mul_of_pos_right (by omega) (Nat.two_pow_pos _)
        _ ≤ 2 ^ 53 * 2 ^ (fExp y - 1 + j) := Nat.mul_le_mul_left _ (Nat.pow_le_pow_right (by norm_num) (by omega))
        _ = 2 ^ 52 * 2 ^ (fExp y - 1 + (j + 1)) := by rw [← Nat.add_assoc, pow_succ 2 (fExp y - 1 + j)]; ring

/-- A multiple of `2^u`, scaled by `2^s`, is a multiple of `2^(s+u)`. -/
theorem scaled_multiple (k s u : Nat) : ((k * 2 ^ u : Nat) : Int) * 2 ^ s = k * (2 ^ (s + u) : Nat) := by
  push_cast
  rw [pow_add]
  ring

/-- Settles O58: the value rounded to is nearest among the multiples of its last place; the finite values that are no such multiple
lie further off, beyond the least one with a full significand. -/
theorem roundingIsToNearestEven : Obligations.RoundingIsToNearestEven := by
  unfold Obligations.RoundingIsToNearestEven
  intro m s y _ hfin z dist
  obtain ⟨u, hbits, hle, hfull⟩ := roundBits_spec hfin
  obtain ⟨hhalf, htie⟩ := roundShift_half m (s + u)
  have hz : z = ofSignBits false (u * 2 ^ 52 + roundShift m (s + u)) := by rw [← hbits]
  generalize roundShift m (s + u) = a at *
  have hfin' : u * 2 ^ 52 + a < infBits := hbits ▸ hfin
  have hmag : fMag z = a * 2 ^ u := hz ▸ fMag_ofSignBits false hle (fun h0 => (hfull h0).1) hfin'
  have hfrac : fFrac z % 2 = a % 2 := by
    rw [hz, fFrac_ofSignBits false (hfin'.trans infBits_lt)]
    omega
  have hdist : dist z = ((m : Int) - a * (2 ^ (s + u) : Nat)).natAbs := by
    simp only [dist, hmag, scaled_multiple]
  rw [hfrac, hmag, hdist]
  obtain ⟨k, hk⟩ | ⟨hu, hsmall⟩ := fMag_multiple_or_small y u
  · rw [mul_comm] at hk
    have hdistY : dist y = ((m : Int) - k * (2 ^ (s + u) : Nat)).natAbs := by
      simp only [dist, hk, scaled_multiple]
    obtain ⟨hnear, hhalfway⟩ := nearest_of_half hhalf k
    rw [hdistY, hk]
    exact ⟨hnear, fun htied hne => htie (hhalfway htied fun hka => hne (by rw [hka]))⟩
  · have hfar : fMag y * 2 ^ s < 2 ^ 52 * 2 ^ (s + u) := by
      rw [pow_add, mul_comm (2 ^ s), ← mul_assoc]
      exact Nat.mul_lt_mul_of_pos_right hsmall (Nat.two_pow_pos s)
    have hnearer := nearer_of_half hhalf hfar (hfull hu).2
    rw [Nat.cast_mul, Nat.cast_pow, Nat.cast_ofNat] at hnearer
    exact ⟨hnearer.le, fun htied => absurd htied hnearer.ne⟩

/-! ### Sums and products (40_sample.md R91) -/

theorem fadd_of_finite {q a b : F64} (ha : fIsFinite a = true) (hb : fIsFinite b = true) :
    fadd q a b = if fVal a + fVal b = 0 then ofSignBits (fSign a && fSign b) 0
      else ofSignBits (decide (fVal a + fVal b < 0)) (roundBits (fVal a + fVal b).natAbs 0) := by
  obtain ⟨hna, hia⟩ := finite_not_special ha
  obtain ⟨hnb, hib⟩ := finite_not_special hb
  simp [fadd, hna, hia, hnb, hib]

theorem fmul_of_finite {q a b : F64} (ha : fIsFinite a = true) (hb : fIsFinite b = true) :
    fmul q a b = ofSignBits (fSign a != fSign b) (roundBits (fMag a * fMag b) 1074) := by
  obtain ⟨hna, hia⟩ := finite_not_special ha
  obtain ⟨hnb, hib⟩ := finite_not_special hb
  simp [fmul, hna, hia, hnb, hib]

/-- An integer with its sign apart. -/
def withSign (sign : Bool) (m : Nat) : Int := if sign then -(m : Int) else m

@[simp] theorem withSign_false (m : Nat) : withSign false m = m := rfl
@[simp] theorem withSign_true (m : Nat) : withSign true m = -(m : Int) := rfl

theorem withSign_natAbs (z : Int) : withSign (decide (z < 0)) z.natAbs = z := by
  by_cases hz : z < 0
  · rw [decide_eq_true hz, withSign_true]
    omega
  · rw [decide_eq_false hz, withSign_false]
    omega

theorem fVal_eq (x : F64) : fVal x = withSign (fSign x) (fMag x) := rfl

theorem natAbs_withSign_sub (sign : Bool) (a b : Nat) :
    (withSign sign a - withSign sign b).natAbs = ((a : Int) - b).natAbs := by
  cases sign with
  | false => rfl
  | true => rw [withSign_true, withSign_true]; omega

/-- Of two integers, taking the signs off brings them no further apart. -/
theorem natAbs_sub_withSign_le (sign : Bool) (y : Int) (m : Nat) :
    ((y.natAbs : Int) - m).natAbs ≤ (y - withSign sign m).natAbs := by
  cases sign with
  | false => rw [withSign_false]; omega
  | true => rw [withSign_true]; omega

theorem withSign_mul (sign : Bool) (a b : Nat) : withSign sign a * b = withSign sign (a * b) := by
  cases sign <;> simp

/-- A value rounded with its sign apart is no further from the exact one than any finite value. -/
theorem fVal_round_nearest (sign : Bool) (m s : Nat) {y : F64} (hy : fIsFinite y = true)
    (hfin : fIsFinite (ofSignBits sign (roundBits m s)) = true) :
    (fVal (ofSignBits sign (roundBits m s)) * (2 ^ s : Nat) - withSign sign m).natAbs ≤
      (fVal y * (2 ^ s : Nat) - withSign sign m).natAbs := by
  have hlt := (fIsFinite_ofSignBits sign (roundBits_le m s)).mp hfin
  have hsign : fSign (ofSignBits sign (roundBits m s)) = sign := fSign_ofSignBits sign (hlt.trans infBits_lt)
  have hmag : fMag (ofSignBits sign (roundBits m s)) = fMag (ofSignBits false (roundBits m s)) := by
    have hbits := hlt.trans infBits_lt
    simp only [fMag, fExp_ofSignBits _ hbits, fFrac_ofSignBits _ hbits]
  have hnear := (roundingIsToNearestEven m s y hy hlt).1
  rw [fVal_eq, hsign, hmag, withSign_mul, natAbs_withSign_sub]
  refine le_trans ?_ (natAbs_sub_withSign_le sign _ m)
  rw [Int.natAbs_mul, natAbs_fVal, Int.natAbs_natCast]
  push_cast at hnear ⊢
  rw [← Int.natAbs_neg (_ - (m : Int)), ← Int.natAbs_neg (_ - (m : Int)), neg_sub, neg_sub]
  exact hnear

/-- Settles O59: sum and product are the exact ones, rounded once with their sign apart. -/
theorem sumsAndProductsAreNearest : Obligations.SumsAndProductsAreNearest := by
  unfold Obligations.SumsAndProductsAreNearest
  intro q a b y ha hb hy
  rw [fadd_of_finite ha hb, fmul_of_finite ha hb]
  constructor
  · split
    · next hzero =>
      intro _
      have hval : fVal (ofSignBits (fSign a && fSign b) 0) = 0 := by
        have hmag : fMag (ofSignBits (fSign a && fSign b) 0) = 0 := by
          rw [fMag, fExp_ofSignBits _ (by norm_num), fFrac_ofSignBits _ (by norm_num)]
          rfl
        simp [fVal, hmag]
      simp [hval, hzero]
    · intro hfin
      have hnear := fVal_round_nearest _ _ _ hy hfin
      rw [withSign_natAbs] at hnear
      simpa using hnear
  · intro hfin
    have hz : withSign (fSign a != fSign b) (fMag a * fMag b) = fVal a * fVal b := by
      rw [fVal_eq, fVal_eq]
      cases fSign a <;> cases fSign b <;> simp
    have hnear := fVal_round_nearest _ _ _ hy hfin
    rw [hz] at hnear
    exact_mod_cast hnear

/-! ### Corner cases of `sadd` and `ssub` (40_sample.md R92, R93) -/

/-- A finite value is rebuilt from its sign and its rounded magnitude. -/
theorem ofSignBits_roundBits_fMag {x : F64} (h : fIsFinite x = true) : ofSignBits (fSign x) (roundBits (fMag x) 0) = x := by
  rw [roundBits_fMag h, ofSignBits_fields]

theorem fSign_eq_of_fVal_ne_zero {x : F64} (h : fVal x ≠ 0) : decide (fVal x < 0) = fSign x := by
  cases hs : fSign x with
  | false =>
    have hval : fVal x = fMag x := by rw [fVal_eq, hs, withSign_false]
    exact decide_eq_false (by omega)
  | true =>
    have hval : fVal x = -(fMag x : Int) := by rw [fVal_eq, hs, withSign_true]
    exact decide_eq_true (by omega)

/-- Of the values 0 there are two patterns. -/
theorem eq_of_fVal_zero {x : F64} (h : fVal x = 0) : x = ofSignBits (fSign x) 0 := by
  have hmag : fMag x = 0 := by rw [← natAbs_fVal, h]; rfl
  obtain ⟨hexp, hfrac⟩ := fields_of_fMag_zero hmag
  have hx := ofSignBits_fields x
  rw [hexp, hfrac] at hx
  exact hx.symm

/-- Adding +0.0 to a component. -/
theorem fadd_zero {q x : F64} (h : fIsFinite x = true) :
    fadd q x 0#64 = if x = 0x8000000000000000#64 then 0#64 else x := by
  have hval : fVal 0#64 = 0 := by decide
  have hsign : fSign 0#64 = false := by decide
  rw [fadd_of_finite h (by decide), hval, hsign, Int.add_zero, Bool.and_false]
  by_cases hzero : fVal x = 0
  · rw [if_pos hzero]
    have hx := eq_of_fVal_zero hzero
    cases hs : fSign x <;> rw [hs] at hx <;> rw [hx] <;> decide
  · have hne : x ≠ 0x8000000000000000#64 := by
      rintro rfl
      exact hzero (by decide)
    rw [if_neg hzero, if_neg hne, fSign_eq_of_fVal_ne_zero hzero, natAbs_fVal, ofSignBits_roundBits_fMag h]

/-- Settles O56, component by component. -/
theorem addingZeroKeepsASample : Obligations.AddingZeroKeepsASample := by
  unfold Obligations.AddingZeroKeepsASample
  intro d x hre him
  rw [sadd, Sample.zero, fadd_zero hre, fadd_zero him]

theorem fVal_fneg (x : F64) : fVal (fneg x) = -fVal x := by
  obtain ⟨hs, he, hf⟩ := fneg_fields x
  have hmag : fMag (fneg x) = fMag x := by rw [fMag, fMag, he, hf]
  rw [fVal_eq, fVal_eq, hs, hmag]
  cases fSign x <;> simp

/-- Subtracting a component from itself: an exact zero, of operands with opposite signs. -/
theorem fsub_self {q x : F64} (h : fIsFinite x = true) : fsub q x x = 0#64 := by
  obtain ⟨hs, he, -⟩ := fneg_fields x
  have hneg : fIsFinite (fneg x) = true := by rw [fIsFinite, he]; exact h
  rw [fsub, fadd_of_finite h hneg, fVal_fneg, Int.add_right_neg, if_pos rfl, hs, Bool.and_not_self]
  rfl

/-- Settles O57, component by component. -/
theorem subtractingItselfGivesZero : Obligations.SubtractingItselfGivesZero := by
  unfold Obligations.SubtractingItselfGivesZero
  intro d x hre him
  rw [ssub, fsub_self hre, fsub_self him, Sample.zero]

/-! ### Unpacking (40_sample.md R96; 30_encoding.md R72, R73) -/

/-- A 32-bit integer, in units of 2^-1074, has a significand of 53 bits with its last place at `2^u`. -/
theorem u32_significand (n : U32) : ∃ u a, n.toNat * 2 ^ 1074 = a * 2 ^ u ∧ a ≤ 2 ^ 53 ∧ (u ≠ 0 → 2 ^ 52 ≤ a) ∧
    u * 2 ^ 52 + a < infBits := by
  have hn := n.isLt
  generalize n.toNat = n at *
  obtain rfl | hpos := Nat.eq_zero_or_pos n
  · exact ⟨0, 0, by rw [Nat.zero_mul, Nat.zero_mul], by norm_num, fun h => absurd rfl h, by norm_num [infBits]⟩
  have hlog : n.log2 < 32 := (Nat.log2_lt hpos.ne').mpr hn
  have hlo : 2 ^ n.log2 ≤ n := Nat.log2_self_le hpos.ne'
  have hhi : n < 2 ^ (n.log2 + 1) := Nat.lt_log2_self
  generalize n.log2 = l at *
  have hsum : 52 - l + (1022 + l) = 1074 := by omega
  have hlow : 2 ^ l * 2 ^ (52 - l) = 2 ^ 52 := by rw [← pow_add, Nat.add_sub_of_le (by omega)]
  have hhigh : 2 ^ (l + 1) * 2 ^ (52 - l) = 2 ^ 53 := by rw [← pow_add]; congr 1; omega
  have hle : n * 2 ^ (52 - l) ≤ 2 ^ 53 := hhigh ▸ Nat.mul_le_mul_right _ hhi.le
  refine ⟨1022 + l, n * 2 ^ (52 - l), by rw [mul_assoc, ← pow_add, hsum], hle,
    fun _ => hlow ▸ Nat.mul_le_mul_right _ hlo, ?_⟩
  unfold infBits
  omega

/-- `u32_to_f64` is exact, and never negative. -/
theorem u32ToF64_exact (n : U32) :
    fIsFinite (u32ToF64 n) = true ∧ fSign (u32ToF64 n) = false ∧ fVal (u32ToF64 n) = (n.toNat : Nat) * 2 ^ 1074 := by
  obtain ⟨u, a, hval, hle, hfull, hfin⟩ := u32_significand n
  have hsign := fSign_ofSignBits false (hfin.trans infBits_lt)
  rw [u32ToF64, hval, roundBits_exact hle hfull hfin]
  refine ⟨(fIsFinite_ofSignBits false hfin.le).mpr hfin, hsign, ?_⟩
  rw [fVal_eq, hsign, fMag_ofSignBits false hle hfull hfin, ← hval, withSign_false,
    Nat.cast_mul, Nat.cast_pow, Nat.cast_ofNat]

theorem wordRe_toNat (w : U64) : (wordRe w).toNat = w.toNat / 2 ^ 32 := by
  have := w.isLt
  rw [wordRe, BitVec.extractLsb'_toNat, Nat.shiftRight_eq_div_pow]
  omega

theorem wordIm_toNat (w : U64) : (wordIm w).toNat = w.toNat % 2 ^ 32 := by
  rw [wordIm, BitVec.extractLsb'_toNat, Nat.shiftRight_zero]

/-- Settles O55: each component is the exact value of its half. -/
theorem unpackIsExactAndUnsigned : Obligations.UnpackIsExactAndUnsigned := by
  unfold Obligations.UnpackIsExactAndUnsigned
  intro w
  rw [← wordRe_toNat, ← wordIm_toNat]
  exact ⟨u32ToF64_exact (wordRe w), u32ToF64_exact (wordIm w)⟩

/-! ### Drawn NaNs (40_sample.md R100) -/

theorem ofSignBits_isNaN (sign : Bool) {payload : Nat} (h0 : payload ≠ 0) (h1 : payload < 2 ^ 52) :
    fIsNaN (ofSignBits sign (infBits + payload)) = true := by
  have hlt : infBits + payload < 2 ^ 63 := by unfold infBits; omega
  have hexp : (infBits + payload) / 2 ^ 52 = 2047 := by unfold infBits; omega
  have hfrac : (infBits + payload) % 2 ^ 52 = payload := by unfold infBits; omega
  rw [fIsNaN, fExp_ofSignBits sign hlt, fFrac_ofSignBits sign hlt, hexp, hfrac]
  simp [h0]

/-- The 53 bits with the given top bit and payload. -/
def nanBits (sign : Bool) (payload : Nat) : BitVec 53 := BitVec.ofNat 53 ((if sign then 2 ^ 52 else 0) + payload)

theorem nanBits_fields (sign : Bool) {payload : Nat} (h : payload < 2 ^ 52) :
    (nanBits sign payload).msb = sign ∧ (nanBits sign payload).toNat % 2 ^ 52 = payload := by
  have hnat : (nanBits sign payload).toNat = (if sign then 2 ^ 52 else 0) + payload := by
    rw [nanBits, BitVec.toNat_ofNat]
    cases sign <;> simp <;> omega
  rw [BitVec.msb_eq_decide, hnat]
  cases sign <;> simp <;> omega

/-- Settles O60: the drawn payload is never 0, and a NaN's own sign and fraction draw it. -/
theorem drawnNaNsAreTheNaNs : Obligations.DrawnNaNsAreTheNaNs := by
  unfold Obligations.DrawnNaNsAreTheNaNs
  constructor
  · intro b
    have hlt : b.toNat % 2 ^ 52 < 2 ^ 52 := Nat.mod_lt _ (Nat.two_pow_pos 52)
    refine ofSignBits_isNaN b.msb ?_ ?_ <;> split <;> omega
  · intro x hx
    simp only [fIsNaN, Bool.and_eq_true, beq_iff_eq, bne_iff_ne] at hx
    obtain ⟨hexp, hfrac⟩ := hx
    obtain ⟨hmsb, hpayload⟩ := nanBits_fields (fSign x) (fFrac_lt x)
    refine ⟨nanBits (fSign x) (fFrac x), ?_⟩
    rw [nanOf, hmsb, hpayload, if_neg hfrac, infBits, ← hexp, ofSignBits_fields]

end Sys2Proof.Machine
